-- ==== Sys2Proof/Word.lean ====
section
/-! DEFINITION. The words the spec treats as bits: the 32-bit command and register word (R16, R53), the byte of the
LCD data path (R6) and the nibble of FOUR_BIT transfers (R72). -/

namespace Sys2Proof

/-- A 32-bit interface register or command word (R16, R53). -/
abbrev Word := BitVec 32

/-- A command code, a character or a key code (R6, R22). -/
abbrev Byte := BitVec 8

/-- Half of a byte, one transfer of FOUR_BIT mode (R72). -/
abbrev Nibble := BitVec 4

end Sys2Proof
end

