-- ==== Sys2Proof/Syntax.lean ====
section
/-! DEFINITION. The command words as data: one constructor per row of spec/opcode_table.json (R55). Each operand has
exactly the width of its field (R54, R57). -/

namespace Sys2Proof

/-- The eight operations of the host command interface (R55). CHIP keeps its two raw bits: all four values are legal
encodings (R58). -/
inductive Instr where
  /-- INIT, OP 0x1 (R77). -/
  | init
  /-- SEND_CMD, OP 0x2 (R78). -/
  | sendCmd (code : Byte)
  /-- PRINT_CHAR, OP 0x3 (R79). -/
  | printChar (ch : Byte)
  /-- CLEAR, OP 0x4 (R80). -/
  | clear
  /-- SET_CURSOR, OP 0x5 (R85). -/
  | setCursor (page column : Byte) (chip : BitVec 2)
  /-- CMD_TO_CHIP, OP 0x6 (R84). -/
  | cmdToChip (code : Byte) (chip : BitVec 2)
  /-- WAIT_BUSY, OP 0x7 (R81). -/
  | waitBusy
  /-- SCAN_KEY, OP 0x8 (R93). -/
  | scanKey
deriving DecidableEq, Repr, Inhabited

end Sys2Proof
end

