-- ==== Sys2Proof/WellFormed.lean ====
section
/-! DEFINITION. What may be handed to the encoder and to the assembler. An `Instr` has its field widths in its types, so
every one is well formed (R57: every operand value is admitted). A line of assembler text carries unbounded numbers, and
there R61 asks for a check. -/

namespace Sys2Proof

/-- Every operand of every operation fits its field by construction, and every value of it is admitted (R57, R58). -/
def Instr.wellFormed : Instr → Bool
  | .init => true
  | .sendCmd _ => true
  | .printChar _ => true
  | .clear => true
  | .setCursor _ _ _ => true
  | .cmdToChip _ _ => true
  | .waitBusy => true
  | .scanKey => true

/-- The names R61 gives the four values of CHIP. -/
inductive ChipName where
  | cs1
  | cs2
  | chip0
  | chip3
deriving DecidableEq, Repr, Inhabited

/-- One line of the assembler syntax: the eight commands (R61) and the pseudo-instructions (R62, R63). -/
inductive AsmLine where
  | init
  | sendCmd (code : Nat)
  | printChar (ch : Nat)
  | clear
  | setCursor (page column : Nat) (chip : ChipName)
  | cmdToChip (code : Nat) (chip : ChipName)
  | waitBusy
  | scanKey
  | printString (text : List Byte)
  | setPage (page : Nat) (chip : ChipName)
  | setColumn (column : Nat) (chip : ChipName)
deriving DecidableEq, Repr, Inhabited

/-- R61: "Each of <code>, <ch>, <page> and <col> must fit in 8 bits, or the assembler rejects the line". SET_PAGE and
SET_COLUMN mask their operand first (R63), so any number will do there (assumption log 13). -/
def AsmLine.wellFormed : AsmLine → Bool
  | .init => true
  | .sendCmd code => decide (code < 256)
  | .printChar ch => decide (ch < 256)
  | .clear => true
  | .setCursor page column _ => decide (page < 256) && decide (column < 256)
  | .cmdToChip code _ => decide (code < 256)
  | .waitBusy => true
  | .scanKey => true
  | .printString _ => true
  | .setPage _ _ => true
  | .setColumn _ _ => true

end Sys2Proof
end

