-- ==== Sys2Proof/Decode.lean ====
section
/-! DEFINITION. The decoder, total on every word and on every list of bytes, and the encoder (R53 to R61). -/

namespace Sys2Proof

/-- A row of the table of R55: its mask, its match pattern, and the operation with its operands read from the word. -/
structure OpRow where
  mask : Word
  pattern : Word
  build : Word → Instr

/-- ARG = w[7:0] (R54): CODE, CH or PAGE, zero-extended and unchanged (R57). -/
def argField (w : Word) : Byte := w.extractLsb' 0 8

/-- COLUMN = w[15:8] (R54). -/
def columnField (w : Word) : Byte := w.extractLsb' 8 8

/-- CHIP = w[17:16] (R54). -/
def chipField (w : Word) : BitVec 2 := w.extractLsb' 16 2

/-- The opcode map of R55, row by row. -/
def opRows : List OpRow :=
  [ ⟨0xFFFFFFFF#32, 0x10000000#32, fun _ => .init⟩,
    ⟨0xFFFFFF00#32, 0x20000000#32, fun w => .sendCmd (argField w)⟩,
    ⟨0xFFFFFF00#32, 0x30000000#32, fun w => .printChar (argField w)⟩,
    ⟨0xFFFFFFFF#32, 0x40000000#32, fun _ => .clear⟩,
    ⟨0xFFFC0000#32, 0x50000000#32, fun w => .setCursor (argField w) (columnField w) (chipField w)⟩,
    ⟨0xFFFCFF00#32, 0x60000000#32, fun w => .cmdToChip (argField w) (chipField w)⟩,
    ⟨0xFFFFFFFF#32, 0x70000000#32, fun _ => .waitBusy⟩,
    ⟨0xFFFFFFFF#32, 0x80000000#32, fun _ => .scanKey⟩ ]

/-- `(w & mask) = match` (R55). -/
def OpRow.matches (r : OpRow) (w : Word) : Bool := w &&& r.mask == r.pattern

/-- A word is legal exactly when some row matches it (R55); every other word is illegal (R60). -/
def legal (w : Word) : Bool := opRows.any fun r => r.matches w

/-- The operation a word stands for, and `none` for an illegal word (R55, R60). The must-be-zero bits are part of each
row's mask (R56). -/
def decode (w : Word) : Option Instr := (opRows.find? fun r => r.matches w).map fun r => r.build w

/-- A word from its four byte lanes, lane 0 first (R43). -/
def wordOfLanes (b0 b1 b2 b3 : Byte) : Word := b3 ++ b2 ++ b1 ++ b0

/-- Byte lane `j` carries bits `[8j+7:8j]` (R43). -/
def lane (v : Word) (j : Nat) : Byte := v.extractLsb' (8 * j) 8

/-- The four lanes of a word, lane 0 first (R43). -/
def lanes (v : Word) : List Byte := [lane v 0, lane v 1, lane v 2, lane v 3]

/-- Decoding from a stream of bytes: the operation and the rest of the stream. -/
def decodeBytes : List Byte → Option (Instr × List Byte)
  | b0 :: b1 :: b2 :: b3 :: rest => (decode (wordOfLanes b0 b1 b2 b3)).map fun i => (i, rest)
  | _ => none

/-- What the decoder reads from the word whose bits are `w`, `nbits` of them; the bits above are zero. Every word of
this hardware has 32 bits (R53). -/
def decodeTableWord (nbits w : Nat) : Option Instr :=
  if nbits ≤ 32 then (decodeBytes (lanes (BitVec.ofNat 32 (w % 2 ^ nbits)))).map Prod.fst else none

/-- OP = w[31:28] of each operation (R55). -/
def Instr.op : Instr → BitVec 4
  | .init => 0x1#4
  | .sendCmd _ => 0x2#4
  | .printChar _ => 0x3#4
  | .clear => 0x4#4
  | .setCursor _ _ _ => 0x5#4
  | .cmdToChip _ _ => 0x6#4
  | .waitBusy => 0x7#4
  | .scanKey => 0x8#4

/-- A command word from its fields (R54): OP, RES = 0, CHIP, COLUMN, ARG. -/
def assembleFields (op : BitVec 4) (chip : BitVec 2) (column arg : Byte) : Word :=
  op ++ (0#10) ++ chip ++ column ++ arg

/-- The word of an operation (R54, R55, R61); the fields it does not use are zero. -/
def encode (i : Instr) : Word :=
  match i with
  | .init => assembleFields i.op 0 0 0
  | .sendCmd code => assembleFields i.op 0 0 code
  | .printChar ch => assembleFields i.op 0 0 ch
  | .clear => assembleFields i.op 0 0 0
  | .setCursor page column chip => assembleFields i.op chip column page
  | .cmdToChip code chip => assembleFields i.op chip 0 code
  | .waitBusy => assembleFields i.op 0 0 0
  | .scanKey => assembleFields i.op 0 0 0

/-- The bytes of an operation's word, lane 0 first (R43). -/
def encodeBytes (i : Instr) : List Byte := lanes (encode i)

end Sys2Proof
end

