-- ==== Sys2Proof/Config.lean ====
section
/-! DEFINITION. The signal map (R39, R6), the build parameters of R5 and R40 and the free values. Every OPEN parameter
and every free value is an opaque constant: nothing can evaluate it, so what is proved holds for every value of it. -/

namespace Sys2Proof

/-- The LCD bus mode, a build-time option (R2). -/
inductive Mode where
  | fourBit
  | eightBit
deriving DecidableEq, Repr, Inhabited

/-- A level: 0 is `low`, 1 is `high` (R7). -/
inductive Level where
  | low
  | high
deriving DecidableEq, Repr, Inhabited

/-- A direction (R7). -/
inductive Dir where
  | input
  | output
deriving DecidableEq, Repr, Inhabited

/-- The lines the engine writes (R26, R27, R29, R32, R68). RST and the columns are not among them. -/
inductive OutLine where
  | rs
  | rw
  | e
  | cs1
  | cs2
  | data (i : Fin 8)
  | row (q : Fin 4)
deriving DecidableEq, Repr, Inhabited

/-- The lines the engine samples: D7 in a busy poll, and the columns (R69). -/
inductive InLine where
  | d7
  | col (c : Fin 4)
deriving DecidableEq, Repr, Inhabited

/-- The whole signal space (R39). -/
inductive Line where
  | rs
  | rw
  | e
  | cs1
  | cs2
  | rst
  | data (i : Fin 8)
  | row (q : Fin 4)
  | col (c : Fin 4)
deriving DecidableEq, Repr, Inhabited

/-- The four minimum durations a `Delay` can name (R106, R123). -/
inductive Delay where
  | powerUp
  | en
  | row
  | deb
deriving DecidableEq, Repr, Inhabited

/-- MODE, OPEN (R2, R5). Assumption log 6. -/
opaque Config.mode : Mode

/-- The level of each latch after power-on: a draw, any level (R37). Assumption log 7. -/
opaque Config.powerOnLevel : OutLine → Level

/-- The direction in which bring-up left a data line that no launch premise fixes: D0 to D3 in FOUR_BIT (R30).
Assumption log 8. -/
opaque Config.bringUpDir : Fin 8 → Dir

/-- The level of RST, owned by bring-up, OPEN (R5, R28). -/
opaque Config.rstLevel : Level

/-- The block's base address, OPEN (R40). -/
opaque Config.base : Nat

/-- PINMAP, OPEN: the (port, pin) pair of each line (R5, R107). -/
opaque Config.pinMap : Line → Nat × Nat

/-- The level a `PinRead` returns once the answers listed in the state have run out: a draw, any level (R13).
Assumption log 5. -/
opaque Config.freeDraw : Nat → Level

/-- T_POWERUP in nanoseconds, OPEN (R5). Assumption log 11. -/
opaque Config.tPowerUp : Nat

/-- T_EN in nanoseconds, OPEN (R5). Assumption log 11. -/
opaque Config.tEn : Nat

/-- By how many nanoseconds T_ROW exceeds its least value, OPEN (R5). Assumption log 11. -/
opaque Config.tRowExcess : Nat

/-- By how many nanoseconds T_DEB exceeds its least value, OPEN (R5). Assumption log 11. -/
opaque Config.tDebExcess : Nat

/-- Which of the sixteen symbols each key position gives, before constraint (b) of R88 is imposed. Assumption log 12. -/
opaque Config.keyOrder : Equiv.Perm (Fin 16)

end Sys2Proof
end

