-- ==== Sys2Proof/Machine/Operands.lean ====
section
/-! DEFINITION. Operand forms: the data lines of each mode (R6), the bits and nibbles of a byte (R44, R45, R76), the
command-byte formulas (R86), the chip selector (R58), the INIT sequences (R5, R77) and the key table (R88, R89). -/

namespace Sys2Proof.Machine

/-- `DA(MODE)`, D7 first (R6). -/
def dataLines : Mode → List (Fin 8)
  | .fourBit => [7, 6, 5, 4]
  | .eightBit => [7, 6, 5, 4, 3, 2, 1, 0]

/-- A bit as a level (R7). -/
def levelOf : Bool → Level
  | false => .low
  | true => .high

/-- The level on `Di` that presents the byte `b`: `Di = b[i]` (R44). -/
def byteLevel (b : Byte) (i : Fin 8) : Level := levelOf (b.getLsbD i)

/-- The level on `D(4+i)` that presents the nibble `n`: `D(4+i) = n[i]` (R45). -/
def nibbleLevel (n : Nibble) (i : Fin 4) : Level := levelOf (n.getLsbD i)

/-- `b[7:4]` (R73). -/
def highNibble (b : Byte) : Nibble := b.extractLsb' 4 4

/-- `b[3:0]` (R73). -/
def lowNibble (b : Byte) : Nibble := b.extractLsb' 0 4

/-- `SETPAGE(p) = 0xB8 | (p & 0x07)` (R86). -/
def setPageByte (p : Byte) : Byte := 0xB8#8 ||| (p &&& 0x07#8)

/-- `SETCOL(c) = 0x40 | (c & 0x7F)` (R86). -/
def setColumnByte (c : Byte) : Byte := 0x40#8 ||| (c &&& 0x7F#8)

/-- The clear-display command byte (R65, R80). -/
def clearByte : Byte := 0x01#8

/-- CHIP = 0b01, the selector CS1 (R58). -/
def chipCs1 : BitVec 2 := 0b01#2

/-- CHIP = 0b10, the selector CS2 (R58). -/
def chipCs2 : BitVec 2 := 0b10#2

/-- The level of CS1 during a transfer to `chip`: high for the selector CS1 only (R58). -/
def cs1Level (chip : BitVec 2) : Level := if chip = chipCs1 then .high else .low

/-- The level of CS2 during a transfer to `chip`: high for the selector CS2 only (R58). -/
def cs2Level (chip : BitVec 2) : Level := if chip = chipCs2 then .high else .low

/-- The decided default of the parameter INIT_SEQ_4 (R5, R77, D9). -/
def defaultInitSeq4 : List Byte := [0x02#8, 0x28#8, 0x14#8, 0x0F#8, 0x01#8, 0x06#8]

/-- The decided default of the parameter INIT_SEQ_8 (R5, R77, D9). -/
def defaultInitSeq8 : List Byte := [0x38#8, 0x14#8, 0x0F#8, 0x01#8, 0x06#8]

/-- The least duration of a `Delay`, in nanoseconds: T_ROW is at least 5 µs and T_DEB at least 20 µs (R5, R123). -/
def duration : Delay → Nat
  | .powerUp => Config.tPowerUp
  | .en => Config.tEn
  | .row => 5000 + Config.tRowExcess
  | .deb => 20000 + Config.tDebExcess

/-- The code of each symbol (R89): '0' to '9', 'A' to 'D', '*', '#'. Symbol 11 is 'B'. -/
def symbolCode (n : Fin 16) : Byte :=
  if n.val < 10 then BitVec.ofNat 8 (0x30 + n.val)
  else if n.val < 14 then BitVec.ofNat 8 (0x41 + (n.val - 10))
  else if n.val = 14 then 0x2A#8 else 0x23#8

/-- Which symbol each position 4r + c gives: any order of the sixteen (R88 (a)) that gives 'B' at row 2, column 3
(R88 (b)). The exchange puts symbol 11 at position 11 and leaves an order that has it there as it is. -/
def symbolAt : Equiv.Perm (Fin 16) := Config.keyOrder.trans (Equiv.swap (Config.keyOrder 11) 11)

/-- The position of (r, c) in row-major order (R88, R94). -/
def keyPosition (r c : Fin 4) : Fin 16 := ⟨4 * r.val + c.val, by omega⟩

/-- `KEYMAP[r][c]` as a character code (R88, R89). -/
def keymap (r c : Fin 4) : Byte := symbolCode (symbolAt (keyPosition r c))

end Sys2Proof.Machine
end

