-- ==== Sys2Proof/Machine/State.lean ====
section
/-! DEFINITION. The state of the block (10_state.md), the events and actions of the engine, the inputs of the outside
world, the reasons a step can stop, and the state after reset. -/

namespace Sys2Proof.Machine

/-- One trace event (R9, R10, R11): DIR(Di, d), W(line, l), R(line) = l, DLY(T). -/
inductive Event where
  | dir (i : Fin 8) (d : Dir)
  | w (line : OutLine) (l : Level)
  | r (line : InLine) (l : Level)
  | dly (t : Delay)
deriving DecidableEq, Repr, Inhabited

/-- What the sequencer does at one position of an operation's event sequence (R34). Each action performs exactly one
trace event; the four reads also choose how the sequence goes on (R67). -/
inductive Action where
  /-- PinDir (R68). -/
  | setDir (i : Fin 8) (d : Dir)
  /-- PinWrite (R68). -/
  | write (line : OutLine) (l : Level)
  /-- Delay (R10). -/
  | delay (t : Delay)
  /-- The sample of D7 that ends an iteration of BUSY_POLL (R75). -/
  | pollRead
  /-- The first read of column c in row r (R93). -/
  | scanRead (r c : Fin 4)
  /-- The confirming read of KEY_CONFIRM (R91). -/
  | confirmRead (r c : Fin 4)
  /-- A read of RELEASE_WAIT (R92). -/
  | releaseRead (r c : Fin 4)
deriving DecidableEq, Repr, Inhabited

/-- `Running(w, k)` (R34). The position k is the list of the actions still to perform, the level the last `PinRead`
returned, and the value completion writes to RESULT.KEY (R22, R93). Assumption log 3. -/
structure Progress where
  word : Word
  todo : List Action
  sample : Option Level
  answer : Option Byte
deriving DecidableEq, Repr, Inhabited

/-- The sequencer: `Idle` or `Running(w, k)` (R34). -/
inductive Seq where
  | idle
  | running (p : Progress)
deriving DecidableEq, Repr, Inhabited

/-- A data line's output latch and direction (R29). -/
structure DataPin where
  level : Level
  dir : Dir
deriving DecidableEq, Repr, Inhabited

/-- The pin latch file (R26, R27, R29, R32). -/
structure Pins where
  rs : Level
  rw : Level
  e : Level
  cs1 : Level
  cs2 : Level
  data : Vector DataPin 8
  rows : Vector Level 4
deriving DecidableEq, Repr

/-- A host access at a byte offset from the block's base, `width` bytes wide (R8, R41). -/
inductive Access where
  | read (off width : Nat)
  | write (off width : Nat) (v : Word)
deriving DecidableEq, Repr, Inhabited

/-- Whose turn a step is (R12, R47): the engine performs its next event, the host performs one access, or the platform
asserts reset (R111). Assumption log 2. -/
inductive Turn where
  | engine
  | host (a : Access)
  | reset
deriving DecidableEq, Repr, Inhabited

/-- What a host `MemRead` returned, and from which offset (R41). -/
structure Reply where
  off : Nat
  value : Word
deriving DecidableEq, Repr, Inhabited

/-- The two recorded fault kinds (R96). Recording one does not stop the machine. -/
inductive FaultKind where
  | illegal
  | overrun
deriving DecidableEq, Repr, Inhabited

/-- The reasons the machine could stop with a fault: none. The block's two faults are STATUS bits that "do not stop the
engine" (R96, R104), and a hang is a run that goes on for ever (R100). Nobody raises one; safe, since no step ends here.
Assumption log 15. -/
inductive Fault where
deriving DecidableEq, Repr

/-- The reasons a step can have no meaning. -/
inductive Refusal where
  /-- Raised by an arm of `exec` that has no meaning yet; there is none. Safe. -/
  | notModelled (mnemonic : String)
  /-- Raised by a host access that R42 refuses: "A refused access has no step and changes no state". Safe: R42 says it
  "errs toward unprovable". Assumption log 14. -/
  | hostAccess (a : Access)
deriving DecidableEq, Repr

/-- The state of the block with the parameters an operation reads, and beside it the environment's answers and turns and the
observable trace. -/
structure State where
  /-- The sequencer (R34). `reg.STATUS.BUSY` is read from it (R18). -/
  seq : Seq
  /-- `reg.STATUS.FAULT_ILLEGAL` (R19). -/
  faultIllegal : Bool
  /-- `reg.STATUS.FAULT_OVERRUN` (R20). -/
  faultOverrun : Bool
  /-- `reg.RESULT.KEY` (R22). -/
  key : Byte
  /-- `reg.CONFIG.MODE`, hardwired (R24). -/
  mode : Mode
  /-- The build parameter INIT_SEQ_4 (R5, R77), fixed for the machine. Assumption log 17. -/
  initSeq4 : List Byte
  /-- The build parameter INIT_SEQ_8 (R5, R77), fixed for the machine. Assumption log 17. -/
  initSeq8 : List Byte
  /-- The pin latch file (R26 to R32). -/
  pins : Pins
  /-- The answers the external agents give next, oldest first (R13). Assumption log 5. -/
  draws : List Level
  /-- How many free draws were taken (R13). Assumption log 5. -/
  drawCount : Nat
  /-- Whose turn the coming steps are; after the last one every turn is the engine's. Assumption log 2. -/
  agenda : List Turn
  /-- The events performed so far, oldest first (R11). Assumption log 9. -/
  trace : List Event
  /-- The host's read results so far, oldest first (R41). Assumption log 9. -/
  replies : List Reply
deriving DecidableEq, Repr

/-- The pins after power-on and bring-up: any levels (R37), the directions of P-DIR (R113), and D0 to D3 in FOUR_BIT as
bring-up left them (R30). Assumption log 7, 8. -/
def Pins.powerOn (mode : Mode) : Pins where
  rs := Config.powerOnLevel .rs
  rw := Config.powerOnLevel .rw
  e := Config.powerOnLevel .e
  cs1 := Config.powerOnLevel .cs1
  cs2 := Config.powerOnLevel .cs2
  data := Vector.ofFn fun i =>
    ⟨Config.powerOnLevel (.data i), if i ∈ dataLines mode then .output else Config.bringUpDir i⟩
  rows := Vector.ofFn fun q => Config.powerOnLevel (.row q)

/-- The block after power-on reset: the table of R36, the INIT parameters at their decided defaults (R5), the pins as R37 and
R113 leave them, and nothing performed, read or pending. -/
def State.reset : State where
  seq := .idle
  faultIllegal := false
  faultOverrun := false
  key := 0x00#8
  mode := Config.mode
  initSeq4 := defaultInitSeq4
  initSeq8 := defaultInitSeq8
  pins := Pins.powerOn Config.mode
  draws := []
  drawCount := 0
  agenda := []
  trace := []
  replies := []

end Sys2Proof.Machine
end

