-- ==== Sys2Proof/Machine/Bus.lean ====
section
/-! DEFINITION. The internal procedures as event sequences: the bus primitives of 40_bus_engine.md (R70 to R75), the
chip-select arbiter (R83) and the keypad's row drive (R90). None has a command word of its own. -/

namespace Sys2Proof.Machine

/-- `ENABLE_PULSE()` (R70). -/
def enablePulse : List Action :=
  [.write .e .high, .delay .en, .write .e .low, .delay .en]

/-- `PUT_BYTE(b)`: D7 down to D0, then the pulse (R71). -/
def putByte (b : Byte) : List Action :=
  (dataLines .eightBit).map (fun i => Action.write (.data i) (byteLevel b i)) ++ enablePulse

/-- The data line of nibble bit i: D(4+i) (R72). -/
def nibbleLine (i : Fin 4) : Fin 8 := ⟨4 + i.val, by omega⟩

/-- `PUT_NIBBLE(n)`: D7 down to D4, then the pulse (R72). -/
def putNibble (n : Nibble) : List Action :=
  [3, 2, 1, 0].map (fun i => Action.write (.data (nibbleLine i)) (nibbleLevel n i)) ++ enablePulse

/-- `XFER(b)` (R73): the high nibble first in FOUR_BIT (R45). -/
def xfer (mode : Mode) (b : Byte) : List Action :=
  match mode with
  | .eightBit => putByte b
  | .fourBit => putNibble (highNibble b) ++ putNibble (lowNibble b)

/-- `FRAME(rs, b)` (R74). -/
def frame (mode : Mode) (rs : Level) (b : Byte) : List Action :=
  [.write .rs rs, .write .rw .low] ++ xfer mode b

/-- `BUSY_POLL()` (R75), its loop written once: `pollRead` starts another iteration when the sample is 1. -/
def busyPoll (mode : Mode) : List Action :=
  (dataLines mode).map (fun i => Action.setDir i .input) ++ [.write .rs .low, .write .rw .high] ++ enablePulse ++
    .pollRead :: (dataLines mode).map (fun i => Action.setDir i .output)

/-- `CS_SELECT(chip)`: the line to be deasserted is written first (R83). -/
def csSelect (chip : BitVec 2) : List Action :=
  if chip = chipCs1 then [.write .cs2 .low, .write .cs1 .high]
  else if chip = chipCs2 then [.write .cs1 .low, .write .cs2 .high]
  else [.write .cs1 .low, .write .cs2 .low]

/-- `CS_RELEASE()` (R83). -/
def csRelease : List Action := [.write .cs1 .low, .write .cs2 .low]

/-- `ROW_DRIVE(r)` (R90). -/
def rowDrive (r : Fin 4) : List Action :=
  [0, 1, 2, 3].map (fun q => Action.write (.row q) .high) ++ [.write (.row r) .low, .delay .row]

/-- The scan of row r (R93), its column loop written out: `scanRead` puts in the confirmation of a low column. -/
def scanRow (r : Fin 4) : List Action :=
  rowDrive r ++ [0, 1, 2, 3].map fun c => Action.scanRead r c

end Sys2Proof.Machine
end

