-- ==== Sys2Proof/Machine/Flags.lean ====
section
/-! DEFINITION. The status bits and the readable registers: STATUS, RESULT, CONFIG (R16 to R24), and recording a fault
(R96), which is all that this block's exceptions do (R104). -/

namespace Sys2Proof.Machine

/-- `reg.STATUS.BUSY`: 1 exactly when `seq ≠ Idle` (R18, R34). -/
def State.busy (s : State) : Bool :=
  match s.seq with
  | .idle => false
  | .running _ => true

/-- `raise Fault(kind)`: set the kind's sticky bit and nothing else (R96, R104). The return from a fault does not exist. -/
def State.raiseFault (kind : FaultKind) (s : State) : State :=
  match kind with
  | .illegal => { s with faultIllegal := true }
  | .overrun => { s with faultOverrun := true }

/-- A bit of a register word. -/
def bit (b : Bool) : BitVec 1 := BitVec.ofBool b

/-- `reg.STATUS`: bit 0 BUSY, bit 1 FAULT_ILLEGAL, bit 2 FAULT_OVERRUN, bits 31 to 3 zero (R18 to R21). -/
def State.statusWord (s : State) : Word := (0#29) ++ bit s.faultOverrun ++ bit s.faultIllegal ++ bit s.busy

/-- `reg.RESULT`: KEY in bits 7 to 0, bits 31 to 8 zero (R22, R23). -/
def State.resultWord (s : State) : Word := (0#24) ++ s.key

/-- `reg.CONFIG.MODE`: 1 means FOUR_BIT (R24). -/
def modeBit : Mode → Bool
  | .fourBit => true
  | .eightBit => false

/-- `reg.CONFIG`: MODE in bit 0, bits 31 to 1 zero (R24). -/
def State.configWord (s : State) : Word := (0#31) ++ bit (modeBit s.mode)

/-- The register a 32-bit read at this offset returns; `none` where no read is admitted (R16, R41, R42). -/
def State.readRegister (s : State) (off : Nat) : Option Word :=
  if off = 0x04 then some s.statusWord
  else if off = 0x08 then some s.resultWord
  else if off = 0x0C then some s.configWord
  else none

end Sys2Proof.Machine
end

