-- ==== Sys2Proof/Machine/Ops.lean ====
section
/-! DEFINITION. The shared operations: the pin primitives (R68, R69), accepting a command word (R66), performing one event
of the running operation (R34, R48), reset (R38), the host port (R41, R42), and whose turn it is (R12). -/

namespace Sys2Proof.Machine

/-- The latch of an output line (R26, R27, R29, R32). -/
def Pins.level (p : Pins) (line : OutLine) : Level :=
  match line with
  | .rs => p.rs
  | .rw => p.rw
  | .e => p.e
  | .cs1 => p.cs1
  | .cs2 => p.cs2
  | .data i => p.data[i].level
  | .row q => p.rows[q]

/-- Set the latch of an output line and no other (R68). -/
def Pins.setLevel (p : Pins) (line : OutLine) (l : Level) : Pins :=
  match line with
  | .rs => { p with rs := l }
  | .rw => { p with rw := l }
  | .e => { p with e := l }
  | .cs1 => { p with cs1 := l }
  | .cs2 => { p with cs2 := l }
  | .data i => { p with data := p.data.set i { p.data[i] with level := l } }
  | .row q => { p with rows := p.rows.set q l }

/-- Set the direction of a data line; its latch keeps its level (R31, R68). -/
def Pins.setDir (p : Pins) (i : Fin 8) (d : Dir) : Pins :=
  { p with data := p.data.set i { p.data[i] with dir := d } }

/-- Record an event (R11). -/
def State.emit (s : State) (e : Event) : State := { s with trace := s.trace ++ [e] }

/-- `PinWrite(line, l)`, an event even when nothing changes (R68). -/
def State.pinWrite (line : OutLine) (l : Level) (s : State) : State :=
  { s with pins := s.pins.setLevel line l }.emit (.w line l)

/-- `PinDir(Di, d)`, an event even when nothing changes (R68). -/
def State.pinDir (i : Fin 8) (d : Dir) (s : State) : State :=
  { s with pins := s.pins.setDir i d }.emit (.dir i d)

/-- `Delay(T)`: an ordering event; the model keeps no time (R10, R106). -/
def State.delay (t : Delay) (s : State) : State := s.emit (.dly t)

/-- The level the external agent gives next (R13): the first listed answer, or a free draw. -/
def State.nextDraw (s : State) : Level :=
  match s.draws with
  | l :: _ => l
  | [] => Config.freeDraw s.drawCount

/-- The state once that level is used up. -/
def State.dropDraw (s : State) : State :=
  match s.draws with
  | _ :: rest => { s with draws := rest }
  | [] => { s with drawCount := s.drawCount + 1 }

/-- The state after `PinRead(line)`; the level it returns is `s.nextDraw` (R69). -/
def State.pinRead (line : InLine) (s : State) : State := s.dropDraw.emit (.r line s.nextDraw)

/-- The engine accepts the command word of `i` when idle: `seq <- Running(w, 0)`, BUSY <- 1, no event yet. While an
operation runs the word is discarded and OVERRUN recorded (R66, R98). Assumption log 1. -/
def State.accept (i : Instr) (script : List Action) (answer : Option Byte) (s : State) :
    Host.Outcome State Fault Refusal :=
  match s.seq with
  | .running _ => .next (s.raiseFault .overrun)
  | .idle => .next { s with seq := .running ⟨encode i, script, none, answer⟩ }

/-- After an event: the operation goes on, or, its last event performed, it ends: RESULT.KEY takes the answer if the
operation has one, `seq <- Idle`, BUSY <- 0 (R18, R22, R66). Assumption log 4. -/
def State.resume (p : Progress) (s : State) : State :=
  match p.todo with
  | [] => { s with seq := .idle, key := p.answer.getD s.key }
  | _ :: _ => { s with seq := .running p }

/-- How a read of the level `l` steers the sequence (R67): the poll repeats on 1 (R75), a low column is confirmed (R91,
R93), a confirmed key awaits its release (R92) and then ends the scan with its code (R93). -/
def Progress.afterRead (a : Action) (l : Level) (p : Progress) : Progress :=
  match a, l with
  | .pollRead, .high => { p with todo := enablePulse ++ .pollRead :: p.todo, sample := some l }
  | .scanRead r c, .low => { p with todo := .delay .deb :: .confirmRead r c :: p.todo, sample := some l }
  | .confirmRead r c, .low => { p with todo := [.releaseRead r c], sample := some l }
  | .releaseRead r c, .low => { p with todo := .releaseRead r c :: p.todo, sample := some l }
  | .releaseRead r c, .high => { p with todo := [], sample := some l, answer := some (keymap r c) }
  | _, _ => { p with sample := some l }

/-- Perform one action, its one event, and move to the next position; `p` is the position behind the action (R48). -/
def State.perform (a : Action) (p : Progress) (s : State) : State :=
  match a with
  | .setDir i d => (s.pinDir i d).resume p
  | .write line l => (s.pinWrite line l).resume p
  | .delay t => (s.delay t).resume p
  | .pollRead => (s.pinRead .d7).resume (p.afterRead .pollRead s.nextDraw)
  | .scanRead r c => (s.pinRead (.col c)).resume (p.afterRead (.scanRead r c) s.nextDraw)
  | .confirmRead r c => (s.pinRead (.col c)).resume (p.afterRead (.confirmRead r c) s.nextDraw)
  | .releaseRead r c => (s.pinRead (.col c)).resume (p.afterRead (.releaseRead r c) s.nextDraw)

/-- The engine's turn: nothing while idle, else the next event of the running operation (R12, R48). -/
def State.engineTurn (s : State) : State :=
  match s.seq with
  | .idle => s
  | .running p =>
    match p.todo with
    | [] => s.resume p
    | a :: rest => s.perform a { p with todo := rest }

/-- The reset input: the interface registers take the values of R36, a running operation is abandoned, and no pin latch
or direction is written (R37, R38, R111). Assumption log 10. -/
def State.applyReset (s : State) : State :=
  { s with seq := .idle, faultIllegal := false, faultOverrun := false, key := 0x00#8 }

/-- `MemWrite(0x00, 4, w)` (R66): OVERRUN first, without decoding the word (R98, R103); then ILLEGAL (R97); else the
operation. `run` is the dispatcher. -/
def handCommand (run : Instr → State → Host.Outcome State Fault Refusal) (w : Word) (s : State) :
    Host.Outcome State Fault Refusal :=
  if s.busy then .next (s.raiseFault .overrun)
  else
    match decode w with
    | none => .next (s.raiseFault .illegal)
    | some i => run i s

/-- One host access: the two admitted forms (R41), and the refusal of every other (R42). -/
def hostAccess (run : Instr → State → Host.Outcome State Fault Refusal) (a : Access) (s : State) :
    Host.Outcome State Fault Refusal :=
  match a with
  | .read off width =>
    if width = 4 then
      match s.readRegister off with
      | some v => .next { s with replies := s.replies ++ [⟨off, v⟩] }
      | none => .refused (.hostAccess a)
    else .refused (.hostAccess a)
  | .write off width v => if off = 0x00 ∧ width = 4 then handCommand run v s else .refused (.hostAccess a)

/-- One turn: the agenda says whose, and an empty agenda leaves every turn to the engine. Assumption log 2. -/
def takeTurn (run : Instr → State → Host.Outcome State Fault Refusal) (s : State) :
    Host.Outcome State Fault Refusal :=
  match s.agenda with
  | [] => .next s.engineTurn
  | .engine :: rest => .next { s with agenda := rest }.engineTurn
  | .host a :: rest => hostAccess run a { s with agenda := rest }
  | .reset :: rest => .next { s with agenda := rest }.applyReset

end Sys2Proof.Machine
end

