-- ==== Sys2Proof/Machine/ChipSelect.lean ====
section
/-! DEFINITION. The chip-targeted operations of 42_chip_select.md: CMD_TO_CHIP and SET_CURSOR. -/

namespace Sys2Proof.Machine

/-- The events of `CMD_TO_CHIP(code, chip)`: select, command frame, release; no poll (R84). -/
def cmdToChipScript (mode : Mode) (code : Byte) (chip : BitVec 2) : List Action :=
  csSelect chip ++ frame mode .low code ++ csRelease

/-- The events of `SET_CURSOR(page, column, chip)`: the page command, then the column command (R85, R86). -/
def setCursorScript (mode : Mode) (page column : Byte) (chip : BitVec 2) : List Action :=
  cmdToChipScript mode (setPageByte page) chip ++ cmdToChipScript mode (setColumnByte column) chip

/-- CMD_TO_CHIP (R84). -/
def execCmdToChip (code : Byte) (chip : BitVec 2) (s : State) : Host.Outcome State Fault Refusal :=
  s.accept (.cmdToChip code chip) (cmdToChipScript s.mode code chip) none

/-- SET_CURSOR (R85). -/
def execSetCursor (page column : Byte) (chip : BitVec 2) (s : State) : Host.Outcome State Fault Refusal :=
  s.accept (.setCursor page column chip) (setCursorScript s.mode page column chip) none

end Sys2Proof.Machine
end

