-- ==== Sys2Proof/Machine/Keypad.lean ====
section
/-! DEFINITION. The keypad scan of 43_keypad.md: SCAN_KEY. -/

namespace Sys2Proof.Machine

/-- "No key" is 0x00 (R89, R93). -/
def noKey : Byte := 0x00#8

/-- The events of a scan that finds every column high (R93); a low column changes them as `Progress.afterRead` says. -/
def scanKeyScript : List Action := [0, 1, 2, 3].flatMap scanRow

/-- SCAN_KEY (R93): completion writes RESULT.KEY, with "no key" unless a key was found. -/
def execScanKey (s : State) : Host.Outcome State Fault Refusal :=
  s.accept .scanKey scanKeyScript (some noKey)

end Sys2Proof.Machine
end

