-- ==== Sys2Proof/Machine/Lcd.lean ====
section
/-! DEFINITION. The LCD operations of 41_lcd_ops.md: INIT, SEND_CMD, PRINT_CHAR, CLEAR, WAIT_BUSY. Each meaning hands the
engine the operation's whole event sequence (R66); one engine turn performs one event of it. -/

namespace Sys2Proof.Machine

/-- The events of `SEND_CMD(code)` (R78): no poll in EIGHT_BIT. -/
def sendCmdScript (mode : Mode) (code : Byte) : List Action :=
  match mode with
  | .fourBit => frame .fourBit .low code ++ busyPoll .fourBit
  | .eightBit => frame .eightBit .low code

/-- The events of INIT for a sequence of command bytes (R77): the power-up delay, then SEND_CMD's events for each. -/
def initScript (mode : Mode) (codes : List Byte) : List Action :=
  .delay .powerUp :: codes.flatMap (sendCmdScript mode)

/-- The events of `PRINT_CHAR(ch)` (R79). -/
def printCharScript (mode : Mode) (ch : Byte) : List Action := frame mode .high ch ++ busyPoll mode

/-- The events of CLEAR: the frame and exactly one poll, in both modes (R80). -/
def clearScript (mode : Mode) : List Action := frame mode .low clearByte ++ busyPoll mode

/-- The events of WAIT_BUSY (R81). -/
def waitBusyScript (mode : Mode) : List Action := busyPoll mode

/-- The command bytes INIT sends: INIT_SEQ_4 or INIT_SEQ_8, whatever the build gave (R5, R77). -/
def State.initSeq (s : State) : List Byte :=
  match s.mode with
  | .fourBit => s.initSeq4
  | .eightBit => s.initSeq8

/-- INIT (R77). -/
def execInit (s : State) : Host.Outcome State Fault Refusal :=
  s.accept .init (initScript s.mode s.initSeq) none

/-- SEND_CMD (R78). -/
def execSendCmd (code : Byte) (s : State) : Host.Outcome State Fault Refusal :=
  s.accept (.sendCmd code) (sendCmdScript s.mode code) none

/-- PRINT_CHAR (R79). -/
def execPrintChar (ch : Byte) (s : State) : Host.Outcome State Fault Refusal :=
  s.accept (.printChar ch) (printCharScript s.mode ch) none

/-- CLEAR (R80). -/
def execClear (s : State) : Host.Outcome State Fault Refusal :=
  s.accept .clear (clearScript s.mode) none

/-- WAIT_BUSY (R81). -/
def execWaitBusy (s : State) : Host.Outcome State Fault Refusal :=
  s.accept .waitBusy (waitBusyScript s.mode) none

end Sys2Proof.Machine
end

