-- ==== Sys2Proof/Machine/Dispatch.lean ====
section
/-! DEFINITION. The dispatcher: one arm per operation (R66). -/

namespace Sys2Proof.Machine

def exec (i : Instr) (s : State) : Host.Outcome State Fault Refusal :=
  match i with
  | .init => Sys2Proof.Machine.execInit s
  | .sendCmd code => Sys2Proof.Machine.execSendCmd code s
  | .printChar ch => Sys2Proof.Machine.execPrintChar ch s
  | .clear => Sys2Proof.Machine.execClear s
  | .setCursor page column chip => Sys2Proof.Machine.execSetCursor page column chip s
  | .cmdToChip code chip => Sys2Proof.Machine.execCmdToChip code chip s
  | .waitBusy => Sys2Proof.Machine.execWaitBusy s
  | .scanKey => Sys2Proof.Machine.execScanKey s

end Sys2Proof.Machine
end

