-- ==== Sys2Proof/Machine/Step.lean ====
section
/-! DEFINITION. One step of the machine: one turn of the engine, of the host, or of the reset input (R12). The block
fetches nothing (R15, R51); a command word comes in by the host's write to CMD. -/

namespace Sys2Proof.Machine

/-- One step. -/
def step (s : State) : Host.Outcome State Fault Refusal := takeTurn exec s

/-- The state in which the very next step is the host's write of that word to CMD, with the engine idle to take it (R53,
R66). Assumption log 16. -/
def State.withFetchWord (s : State) (nbits w : Nat) : State :=
  { s with
    seq := .idle
    agenda := .host (.write 0x00 4 (BitVec.ofNat 32 (w % 2 ^ nbits))) :: s.agenda }

end Sys2Proof.Machine
end

