-- ==== Sys2Proof/Machine/Assembler.lean ====
section
/-! DEFINITION. The assembler of R61 and the pseudo-instructions of R62, R63 and R82, as the command words a host issues
for a line. The waits for BUSY = 0 between them are the host's (R82, R116). -/

namespace Sys2Proof.Machine

/-- The CHIP field of each chip name (R61). -/
def chipOfName : ChipName → BitVec 2
  | .cs1 => 0b01#2
  | .cs2 => 0b10#2
  | .chip0 => 0b00#2
  | .chip3 => 0b11#2

/-- A number as an operand byte (R61). -/
def operandByte (n : Nat) : Byte := BitVec.ofNat 8 n

/-- The operations an accepted line stands for. PRINT_STRING gives one PRINT_CHAR per byte up to and excluding the first
0x00 (R62, R82); SET_PAGE and SET_COLUMN give one CMD_TO_CHIP (R63). -/
def expandLine : AsmLine → List Instr
  | .init => [.init]
  | .sendCmd code => [.sendCmd (operandByte code)]
  | .printChar ch => [.printChar (operandByte ch)]
  | .clear => [.clear]
  | .setCursor page column chip => [.setCursor (operandByte page) (operandByte column) (chipOfName chip)]
  | .cmdToChip code chip => [.cmdToChip (operandByte code) (chipOfName chip)]
  | .waitBusy => [.waitBusy]
  | .scanKey => [.scanKey]
  | .printString text => (text.takeWhile fun b => b != 0x00#8).map .printChar
  | .setPage page chip => [.cmdToChip (setPageByte (operandByte page)) (chipOfName chip)]
  | .setColumn column chip => [.cmdToChip (setColumnByte (operandByte column)) (chipOfName chip)]

/-- The assembler: a line with an operand that does not fit is rejected (R61). -/
def assembleLine (line : AsmLine) : Option (List Word) :=
  if line.wellFormed then some ((expandLine line).map encode) else none

end Sys2Proof.Machine
end

