-- ==== Sys2Proof/Machine/Signals.lean ====
section
/-! DEFINITION. How the block meets the outside: what it drives on each line of the signal space (R28, R29, R31, R33,
R39), the physical pin of an event (R107), the bus address of a register (R40), and the cycle the pins select (R64). -/

namespace Sys2Proof.Machine

/-- The level on a line as far as the block or bring-up decides it: a latch, RST_LEVEL (R28), and nothing for a data line
that is an input (R29, R31) or a column (R33). -/
def State.driven (s : State) (line : Line) : Option Level :=
  match line with
  | .rs => some s.pins.rs
  | .rw => some s.pins.rw
  | .e => some s.pins.e
  | .cs1 => some s.pins.cs1
  | .cs2 => some s.pins.cs2
  | .rst => some Config.rstLevel
  | .data i => if s.pins.data[i].dir = .output then some s.pins.data[i].level else none
  | .row q => some s.pins.rows[q]
  | .col _ => none

/-- An output line as a line of the signal space. -/
def lineOfOut : OutLine → Line
  | .rs => .rs
  | .rw => .rw
  | .e => .e
  | .cs1 => .cs1
  | .cs2 => .cs2
  | .data i => .data i
  | .row q => .row q

/-- A sampled line as a line of the signal space. -/
def lineOfIn : InLine → Line
  | .d7 => .data 7
  | .col c => .col c

/-- The line an event acts on; none for a delay (R9, R10). -/
def Event.line : Event → Option Line
  | .dir i _ => some (.data i)
  | .w line _ => some (lineOfOut line)
  | .r line _ => some (lineOfIn line)
  | .dly _ => none

/-- The (port, pin) an event acts on (R107). -/
def Event.pin (e : Event) : Option (Nat × Nat) := e.line.map Config.pinMap

/-- The bus address of the register at a byte offset (R16, R40). -/
def busAddress (off : Nat) : Nat := Config.base + off

end Sys2Proof.Machine
end

