-- ==== Sys2Proof/Safety.lean ====
section
/-! DEFINITION. The terms claims use: the shorthand traces of R11 and 95_test_vectors.md written out event by event, what a
trace does to the pins (R68), what it means to run an operation to its end, the launch premises (R113), and the invariants
of the sequencer and of the lines. -/

namespace Sys2Proof.Machine

/-! ### What a trace does to the pins -/

/-- A `W` sets its line's latch and a `DIR` its line's direction; reads and delays change no pin (R68, R69). -/
def Pins.afterEvent (p : Pins) : Event → Pins
  | .dir i d => p.setDir i d
  | .w line l => p.setLevel line l
  | .r _ _ => p
  | .dly _ => p

/-- The pins after the events of a trace, in order (R48). -/
def Pins.after (p : Pins) (tr : List Event) : Pins := tr.foldl Pins.afterEvent p

/-- The event an action performs, `l` being the level a read returns (R9, R34). -/
def Action.event (a : Action) (l : Level) : Event :=
  match a with
  | .setDir i d => .dir i d
  | .write line l' => .w line l'
  | .delay t => .dly t
  | .pollRead => .r .d7 l
  | .scanRead _ c => .r (.col c) l
  | .confirmRead _ c => .r (.col c) l
  | .releaseRead _ c => .r (.col c) l

/-- The actions that read a line. -/
def Action.reads : Action → Bool
  | .setDir _ _ => false
  | .write _ _ => false
  | .delay _ => false
  | .pollRead => true
  | .scanRead _ _ => true
  | .confirmRead _ _ => true
  | .releaseRead _ _ => true

/-- What the lines of an LCD bus cycle carry (R64): RS, RW, the chip selects, and the lines of DA(MODE), D7 first, each with
the level the block drives on it, or none while it is an input. -/
structure BusCycle where
  rs : Level
  rw : Level
  cs1 : Level
  cs2 : Level
  data : List (Option Level)
deriving DecidableEq, Repr

/-- The bus cycle the pins stand for. -/
def Pins.busCycle (mode : Mode) (p : Pins) : BusCycle :=
  ⟨p.rs, p.rw, p.cs1, p.cs2,
    (dataLines mode).map fun i => if p.data[i].dir = .output then some p.data[i].level else none⟩

/-- The bus cycles of a trace that starts at these pins: one for each event that raises the enable line (R64, R70). -/
def busCycles (mode : Mode) : Pins → List Event → List BusCycle
  | _, [] => []
  | p, e :: rest => (if e = .w .e .high then [p.busCycle mode] else []) ++ busCycles mode (p.afterEvent e) rest

/-- The command (RS = 0) or data (RS = 1) write cycles that carry the byte `b`: one in EIGHT_BIT, two in FOUR_BIT, the high
nibble first (R44, R45, R64). -/
def writeCycles (mode : Mode) (cs1 cs2 rs : Level) (b : Byte) : List BusCycle :=
  match mode with
  | .eightBit => [⟨rs, .low, cs1, cs2, [7, 6, 5, 4, 3, 2, 1, 0].map fun i => some (levelOf (b.getLsbD i))⟩]
  | .fourBit =>
    [⟨rs, .low, cs1, cs2, [7, 6, 5, 4].map fun i => some (levelOf (b.getLsbD i))⟩,
     ⟨rs, .low, cs1, cs2, [3, 2, 1, 0].map fun i => some (levelOf (b.getLsbD i))⟩]

/-- The status read cycle: the data lines are inputs (R64). -/
def statusCycle (mode : Mode) (cs1 cs2 : Level) : BusCycle :=
  ⟨.low, .high, cs1, cs2, (dataLines mode).map fun _ => none⟩

/-- The least time a trace takes, in nanoseconds, counting only its delays (R124). -/
def minDuration : List Event → Nat
  | [] => 0
  | .dly t :: rest => duration t + minDuration rest
  | .dir _ _ :: rest => minDuration rest
  | .w _ _ :: rest => minDuration rest
  | .r _ _ :: rest => minDuration rest

/-! ### Shorthand traces -/

/-- `PULSE` (R70). -/
def pulseTrace : List Event := [.w .e .high, .dly .en, .w .e .low, .dly .en]

/-- The byte transfer of each mode (R71, R72, R73): one pulse in EIGHT_BIT, two in FOUR_BIT, high nibble first. -/
def transferTrace (mode : Mode) (b : Byte) : List Event :=
  match mode with
  | .eightBit =>
    [.w (.data 7) (levelOf (b.getLsbD 7)), .w (.data 6) (levelOf (b.getLsbD 6)),
     .w (.data 5) (levelOf (b.getLsbD 5)), .w (.data 4) (levelOf (b.getLsbD 4)),
     .w (.data 3) (levelOf (b.getLsbD 3)), .w (.data 2) (levelOf (b.getLsbD 2)),
     .w (.data 1) (levelOf (b.getLsbD 1)), .w (.data 0) (levelOf (b.getLsbD 0))] ++ pulseTrace
  | .fourBit =>
    [.w (.data 7) (levelOf (b.getLsbD 7)), .w (.data 6) (levelOf (b.getLsbD 6)),
     .w (.data 5) (levelOf (b.getLsbD 5)), .w (.data 4) (levelOf (b.getLsbD 4))] ++ pulseTrace ++
    [.w (.data 7) (levelOf (b.getLsbD 3)), .w (.data 6) (levelOf (b.getLsbD 2)),
     .w (.data 5) (levelOf (b.getLsbD 1)), .w (.data 4) (levelOf (b.getLsbD 0))] ++ pulseTrace

/-- The trace of `FRAME(rs, b)` (R74). -/
def frameTrace (mode : Mode) (rs : Level) (b : Byte) : List Event :=
  [.w .rs rs, .w .rw .low] ++ transferTrace mode b

/-- The lines of DA(MODE) all set to one direction, D7 first (R75). -/
def turnTrace (mode : Mode) (d : Dir) : List Event :=
  match mode with
  | .eightBit => [.dir 7 d, .dir 6 d, .dir 5 d, .dir 4 d, .dir 3 d, .dir 2 d, .dir 1 d, .dir 0 d]
  | .fourBit => [.dir 7 d, .dir 6 d, .dir 5 d, .dir 4 d]

/-- The iterations of a busy poll with these samples (R75). -/
def sampleTrace (samples : List Level) : List Event :=
  samples.flatMap fun l => pulseTrace ++ [.r .d7 l]

/-- The samples of a busy poll that reads 1 `ones` times and then 0 (R75). -/
def pollDraws (ones : Nat) : List Level := List.replicate ones .high ++ [.low]

/-- The trace of a busy poll that reads 1 `ones` times and then 0 (R75). -/
def pollTrace (mode : Mode) (ones : Nat) : List Event :=
  turnTrace mode .input ++ [.w .rs .low, .w .rw .high] ++ sampleTrace (pollDraws ones) ++ turnTrace mode .output

/-- The trace of `CS_SELECT(chip)` (R58, R83). -/
def selectTrace (chip : BitVec 2) : List Event :=
  if chip = 0b01#2 then [.w .cs2 .low, .w .cs1 .high]
  else if chip = 0b10#2 then [.w .cs1 .low, .w .cs2 .high]
  else [.w .cs1 .low, .w .cs2 .low]

/-- The trace of `CMD_TO_CHIP(code, chip)` (R84). -/
def chipTrace (mode : Mode) (code : Byte) (chip : BitVec 2) : List Event :=
  selectTrace chip ++ frameTrace mode .low code ++ [.w .cs1 .low, .w .cs2 .low]

/-- The trace of `ROW_DRIVE(r)` (R90). -/
def rowTrace (r : Fin 4) : List Event :=
  [.w (.row 0) .high, .w (.row 1) .high, .w (.row 2) .high, .w (.row 3) .high, .w (.row r) .low, .dly .row]

/-- The sixteen positions a scan visits, in row-major order (R93, R94). -/
def scanOrder : List (Fin 4 × Fin 4) :=
  [(0, 0), (0, 1), (0, 2), (0, 3), (1, 0), (1, 1), (1, 2), (1, 3),
   (2, 0), (2, 1), (2, 2), (2, 3), (3, 0), (3, 1), (3, 2), (3, 3)]

/-- The pseudocode of R93 run on listed answers: the trace, the key code and the answers left over, from the positions
still to visit. `none` when the answers run out before the scan ends. -/
def scanPass : List (Fin 4 × Fin 4) → List Level → Option (List Event × Byte × List Level)
  | [], ds => some ([], 0x00#8, ds)
  | (r, c) :: ps, ds =>
    let drive := if c = 0 then rowTrace r else []
    match ds with
    | .high :: ds' =>
      (scanPass ps ds').map fun x => (drive ++ [.r (.col c) .high] ++ x.1, x.2)
    | .low :: .high :: ds' =>
      (scanPass ps ds').map fun x =>
        (drive ++ [.r (.col c) .low, .dly .deb, .r (.col c) .high] ++ x.1, x.2)
    | .low :: .low :: ds' =>
      match ds'.dropWhile (fun l => l == .low) with
      | [] => none
      | _ :: rest =>
        some (drive ++ [.r (.col c) .low, .dly .deb, .r (.col c) .low] ++
          (ds'.takeWhile (fun l => l == .low)).map (fun l => .r (.col c) l) ++ [.r (.col c) .high], keymap r c, rest)
    | _ => none

/-! ### Running an operation -/

/-- `n` steps of the machine. -/
def runs (n : Nat) (s : State) : Host.Outcome State Fault Refusal := Host.Core.run Sys2Proof.core n s

/-- From `s` the machine performs exactly the events `tr`, one a step, with BUSY = 1 before each of them and the pins as the
events so far leave them, and is then in `t`. -/
def RunsTo (s : State) (tr : List Event) (t : State) : Prop :=
  (∀ k < tr.length, ∃ u, runs k s = .next u ∧ u.busy = true ∧ u.trace = s.trace ++ tr.take k ∧
    u.pins = s.pins.after (tr.take k)) ∧
    runs tr.length s = .next t

/-- At `s` the engine accepts the operation and performs it, event by event, to its end; `P` holds of the events it performed,
the last one among them, which are exactly what the trace has gained and what the pins have gone through. -/
def RunsWith (i : Instr) (s : State) (P : List Event → Prop) : Prop :=
  ∃ p tr t, exec i s = .next { s with seq := .running p } ∧ RunsTo { s with seq := .running p } tr t ∧
    t.seq = .idle ∧ t.trace = s.trace ++ tr ∧ t.pins = s.pins.after tr ∧ P tr

/-! ### Premises -/

/-- No fault bit is set (R96). -/
def State.noFault (s : State) : Bool := !s.faultIllegal && !s.faultOverrun

/-- P-DIR for the data lines (R113). -/
def State.launched (s : State) : Prop := ∀ i ∈ dataLines s.mode, s.pins.data[i].dir = .output

/-- The host accesses R41 admits. -/
def Access.admitted : Access → Bool
  | .read off width => width == 4 && (off == 0x04 || off == 0x08 || off == 0x0C)
  | .write off width _ => width == 4 && off == 0x00

/-! ### Invariants -/

/-- The event sequence of each operation when no read departs from it (R77 to R93); `codes` are INIT's command bytes. -/
def scriptOf (mode : Mode) (codes : List Byte) : Instr → List Action
  | .init => initScript mode codes
  | .sendCmd code => sendCmdScript mode code
  | .printChar ch => printCharScript mode ch
  | .clear => clearScript mode
  | .setCursor page column chip => setCursorScript mode page column chip
  | .cmdToChip code chip => cmdToChipScript mode code chip
  | .waitBusy => waitBusyScript mode
  | .scanKey => scanKeyScript

/-- What an operation writes to RESULT.KEY when it ends and has found no key: SCAN_KEY alone writes it (R22). -/
def answerOf : Instr → Option Byte
  | .scanKey => some 0x00#8
  | .init => none
  | .sendCmd _ => none
  | .printChar _ => none
  | .clear => none
  | .setCursor _ _ _ => none
  | .cmdToChip _ _ => none
  | .waitBusy => none

/-- `todo` is a position of the operation with this sequence: a rest of the sequence, or the confirmation or the release
wait of the column just read (R34, R91, R92). -/
def AtPosition (script todo : List Action) : Prop :=
  todo ≠ [] ∧
    (todo <:+ script ∨
      ∃ r c rest, (Action.scanRead r c :: rest) <:+ script ∧
        (todo = .delay .deb :: .confirmRead r c :: rest ∨ todo = .confirmRead r c :: rest ∨ todo = [.releaseRead r c]))

/-- A running engine stands at a position of the operation that its accepted word decodes to (R34, R66). -/
def State.positionOk (s : State) : Prop :=
  ∀ p, s.seq = .running p →
    ∃ i, decode p.word = some i ∧ AtPosition (scriptOf s.mode s.initSeq i) p.todo ∧ p.answer = answerOf i

/-- The actions still to perform; none while idle. -/
def State.todo (s : State) : List Action :=
  match s.seq with
  | .idle => []
  | .running p => p.todo

/-- A sequence whose next direction change of `Di` makes it an output again: the position lies inside a busy poll's
input phase for `Di` (R75). -/
def insidePoll (i : Fin 8) : List Action → Bool
  | [] => false
  | .setDir j d :: rest => if j = i then d == .output else insidePoll i rest
  | _ :: rest => insidePoll i rest

/-- Every line of DA(MODE) is an input inside the busy poll and an output everywhere else (R29). -/
def State.directionsOk (s : State) : Prop :=
  ∀ i ∈ dataLines s.mode, s.pins.data[i].dir = if insidePoll i s.todo then .input else .output

/-- From the levels `a` of CS1 and `b` of CS2, no write of the sequence ever leaves both high. -/
def neverBoth (a b : Level) : List Action → Prop
  | [] => ¬(a = .high ∧ b = .high)
  | .write .cs1 l :: rest => ¬(a = .high ∧ b = .high) ∧ neverBoth l b rest
  | .write .cs2 l :: rest => ¬(a = .high ∧ b = .high) ∧ neverBoth a l rest
  | _ :: rest => neverBoth a b rest

/-- CS1 and CS2 are not both high, and the running operation will not make them so (R87). -/
def State.chipSelectsOk (s : State) : Prop := neverBoth s.pins.cs1 s.pins.cs2 s.todo

end Sys2Proof.Machine
end

