-- ==== Sys2Proof/Certificates/Slice0/Obligations.lean ====
section
/-! DEFINITION. The statements for the provers: what the numbered rules of spec/ say the block does. -/

open Sys2Proof Sys2Proof.Machine

/-! ### Encoding -/

/-- R53 to R57, R61: decoding an encoded operation gives it back, from its word and from its bytes in a stream. -/
def Obligations.DecodeOfEncodeReturnsTheInstruction : Prop :=
  ∀ (i : Instr) (rest : List Byte), i.wellFormed = true →
    decode (encode i) = some i ∧ decodeBytes (encodeBytes i ++ rest) = some (i, rest)

/-- R55, R56: every operation has one word only; whatever word decodes to it is its encoding. -/
def Obligations.EncodeOfDecodeReturnsTheWord : Prop :=
  ∀ (w : Word) (i : Instr), decode w = some i → encode i = w

/-- R55, R56, R60: a word is an operation exactly when its OP is one of the eight and that OP's must-be-zero bits are
clear; and at most one row of the table matches a word. -/
def Obligations.LegalWordsAreExactlyTheEightForms : Prop :=
  (∀ w : Word, (decode w).isSome = true ↔
    ((w.extractLsb' 28 4 = 0x1#4 ∨ w.extractLsb' 28 4 = 0x4#4 ∨ w.extractLsb' 28 4 = 0x7#4 ∨
        w.extractLsb' 28 4 = 0x8#4) ∧ w.extractLsb' 0 28 = 0#28) ∨
    ((w.extractLsb' 28 4 = 0x2#4 ∨ w.extractLsb' 28 4 = 0x3#4) ∧ w.extractLsb' 8 20 = 0#20) ∨
    (w.extractLsb' 28 4 = 0x5#4 ∧ w.extractLsb' 18 10 = 0#10) ∨
    (w.extractLsb' 28 4 = 0x6#4 ∧ w.extractLsb' 18 10 = 0#10 ∧ w.extractLsb' 8 8 = 0#8)) ∧
  (∀ w : Word, legal w = (decode w).isSome) ∧
  (∀ w : Word, (opRows.countP fun r => r.matches w) ≤ 1)

/-- R55: words written out from the table decode to the operations they stand for. -/
def Obligations.SampleCommandWordsDecode : Prop :=
  decode 0x10000000#32 = some .init ∧ decode 0x200000A5#32 = some (.sendCmd 0xA5#8) ∧
  decode 0x30000041#32 = some (.printChar 0x41#8) ∧ decode 0x40000000#32 = some .clear ∧
  decode 0x5002C80C#32 = some (.setCursor 12#8 200#8 0b10#2) ∧
  decode 0x60030040#32 = some (.cmdToChip 0x40#8 0b11#2) ∧ decode 0x70000000#32 = some .waitBusy ∧
  decode 0x80000000#32 = some .scanKey ∧ decode 0x00000000#32 = none ∧ decode 0x90000000#32 = none ∧
  decode 0x10000001#32 = none ∧ decode 0x60000140#32 = none

/-! ### The operation lifecycle, faults and the host port -/

/-- R66: when the host's write to CMD is next and the engine is idle, the step is the decoded operation's meaning, with
the write taken off the agenda. -/
def Obligations.StepRunsTheDecodedCommand : Prop :=
  ∀ (s : State) (w : Word) (i : Instr) (rest : List Turn),
    s.agenda = .host (.write 0x00 4 w) :: rest → s.seq = .idle → decode w = some i →
    step s = exec i { s with agenda := rest }

/-- The model's own convention for handing a word to the machine (assumption log 16): the very next step runs it. -/
def Obligations.FetchedWordRunsNext : Prop :=
  ∀ (s : State) (i : Instr),
    decodeTableWord 32 (encode i).toNat = some i ∧
    step (s.withFetchWord 32 (encode i).toNat) = exec i { s with seq := .idle }

/-- R18, R66: an idle engine that takes an operation goes to BUSY = 1 with that word and some first event, and nothing else
changes; a busy one only records OVERRUN. -/
def Obligations.AcceptedCommandChangesOnlyTheSequencer : Prop :=
  ∀ (i : Instr) (s : State),
    (s.seq = .idle → ∃ p, exec i s = .next { s with seq := .running p } ∧ p.word = encode i ∧ p.todo ≠ []) ∧
    (s.busy = true → exec i s = .next { s with faultOverrun := true })

/-- R97: an illegal word written to an idle engine sets FAULT_ILLEGAL and changes nothing else, and the engine then takes
any operation; no operation sets the bit, and every legal word stands for an operation. -/
def Obligations.IllegalWordSetsOnlyFaultIllegal : Prop :=
  (∀ (s : State) (w : Word) (rest : List Turn),
    s.agenda = .host (.write 0x00 4 w) :: rest → s.seq = .idle → legal w = false →
    step s = .next { s with agenda := rest, faultIllegal := true } ∧
    ∀ i : Instr, ∃ p, exec i { s with agenda := rest, faultIllegal := true } =
      .next { s with agenda := rest, faultIllegal := true, seq := .running p }) ∧
  (∀ (i : Instr) (s t : State), exec i s = .next t → t.faultIllegal = s.faultIllegal) ∧
  (∀ s : State, s.engineTurn.faultIllegal = s.faultIllegal) ∧
  (∀ w : Word, legal w = true → ∃ i, decode w = some i)

/-- R98: any word written while an operation runs, legal or not, sets FAULT_OVERRUN and nothing else, and the running
operation's next event is what it would have been. -/
def Obligations.OverrunSetsOnlyItsBitAndDisturbsNothing : Prop :=
  ∀ (s : State) (w : Word) (rest : List Turn),
    s.agenda = .host (.write 0x00 4 w) :: rest → s.seq ≠ .idle →
    step s = .next { s with agenda := rest, faultOverrun := true } ∧
    { s with agenda := rest, faultOverrun := true }.engineTurn =
      { s.engineTurn with agenda := rest, faultOverrun := true }

/-- R19, R20: each fault bit is set by its one cause, stays set until reset, and is bit 1 or bit 2 of STATUS. -/
def Obligations.FaultBitsHaveOneCauseAndOnlyResetClearsThem : Prop :=
  (∀ s t : State, step s = .next t →
    (t.faultIllegal = true ↔ s.agenda.head? ≠ some .reset ∧
      (s.faultIllegal = true ∨
        (s.seq = .idle ∧ ∃ w, s.agenda.head? = some (.host (.write 0x00 4 w)) ∧ legal w = false))) ∧
    (t.faultOverrun = true ↔ s.agenda.head? ≠ some .reset ∧
      (s.faultOverrun = true ∨ (s.busy = true ∧ ∃ w, s.agenda.head? = some (.host (.write 0x00 4 w)))))) ∧
  (∀ s : State, s.statusWord.getLsbD 1 = s.faultIllegal ∧ s.statusWord.getLsbD 2 = s.faultOverrun) ∧
  State.reset.faultIllegal = false ∧ State.reset.faultOverrun = false

/-- R36, R38: reset takes the interface registers to their reset values, abandons a running operation, and writes no pin
latch, no direction and no event. -/
def Obligations.ResetClearsTheInterfaceAndWritesNoPin : Prop :=
  ∀ (s : State) (rest : List Turn), s.agenda = .reset :: rest →
    ∃ t, step s = .next t ∧
      t = { s with
        agenda := rest, seq := .idle, faultIllegal := false, faultOverrun := false, key := 0x00#8 } ∧
      t.statusWord = 0#32 ∧ t.resultWord = 0#32 ∧ t.configWord = s.configWord

/-- R36, R112, R113: after power-on reset the engine is idle, STATUS and RESULT read 0, CONFIG reads the build's MODE, and
the data lines of DA(MODE) are outputs. -/
def Obligations.PowerOnResetLeavesAnIdleInterface : Prop :=
  State.reset.seq = .idle ∧ State.reset.statusWord = 0#32 ∧ State.reset.resultWord = 0#32 ∧
  State.reset.mode = Config.mode ∧ (State.reset.configWord = 1#32 ↔ Config.mode = .fourBit) ∧
  (State.reset.configWord = 0#32 ↔ Config.mode = .eightBit) ∧ State.reset.launched

/-- R16, R18, R21, R22, R23, R24: where the fields of the three readable registers stand, and that every other bit is
0. -/
def Obligations.RegisterWordsHoldTheirFields : Prop :=
  ∀ s : State,
    (s.statusWord.getLsbD 0 = true ↔ s.seq ≠ .idle) ∧ s.statusWord.getLsbD 1 = s.faultIllegal ∧
    s.statusWord.getLsbD 2 = s.faultOverrun ∧ s.statusWord.extractLsb' 3 29 = 0#29 ∧
    s.resultWord.extractLsb' 0 8 = s.key ∧ s.resultWord.extractLsb' 8 24 = 0#24 ∧
    (s.configWord.getLsbD 0 = true ↔ s.mode = .fourBit) ∧ s.configWord.extractLsb' 1 31 = 0#31

/-- R41, R46, R47: a 32-bit read of STATUS, RESULT or CONFIG, at any moment, returns that register's word and has no other
effect. -/
def Obligations.AdmittedReadOnlyReturnsItsRegister : Prop :=
  ∀ (s : State) (rest : List Turn),
    (s.agenda = .host (.read 0x04 4) :: rest →
      step s = .next { s with agenda := rest, replies := s.replies ++ [⟨0x04, s.statusWord⟩] }) ∧
    (s.agenda = .host (.read 0x08 4) :: rest →
      step s = .next { s with agenda := rest, replies := s.replies ++ [⟨0x08, s.resultWord⟩] }) ∧
    (s.agenda = .host (.read 0x0C 4) :: rest →
      step s = .next { s with agenda := rest, replies := s.replies ++ [⟨0x0C, s.configWord⟩] })

/-- R42: exactly the accesses outside R41's two forms are refused, as no step at all; every other step has a next state. -/
def Obligations.OnlyInadmissibleAccessesAreRefused : Prop :=
  ∀ s : State,
    (∀ (off width : Nat) (rest : List Turn), s.agenda = .host (.read off width) :: rest →
      ¬(width = 4 ∧ (off = 0x04 ∨ off = 0x08 ∨ off = 0x0C)) → step s = .refused (.hostAccess (.read off width))) ∧
    (∀ (off width : Nat) (v : Word) (rest : List Turn), s.agenda = .host (.write off width v) :: rest →
      ¬(width = 4 ∧ off = 0x00) → step s = .refused (.hostAccess (.write off width v))) ∧
    ((∀ (a : Access) (rest : List Turn), s.agenda = .host a :: rest → a.admitted = true) → ∃ t, step s = .next t)

/-- R25: nothing changes MODE. -/
def Obligations.NothingChangesTheBusMode : Prop :=
  (∀ s t : State, step s = .next t → t.mode = s.mode) ∧
  (∀ (i : Instr) (s t : State), exec i s = .next t → t.mode = s.mode)

/-- R5, R51: the INIT sequences are parameters: no step and no operation changes them. -/
def Obligations.NothingChangesTheInitSequences : Prop :=
  (∀ s t : State, step s = .next t → t.initSeq4 = s.initSeq4 ∧ t.initSeq8 = s.initSeq8) ∧
  (∀ (i : Instr) (s t : State), exec i s = .next t → t.initSeq4 = s.initSeq4 ∧ t.initSeq8 = s.initSeq8)

/-- R22: the step that ends a SCAN_KEY leaves in RESULT.KEY the code of the key whose release it waited for, or 0x00 when it
waited for none; every other step but a reset leaves RESULT.KEY as it was; and it is RESULT[7:0] and 0x00 at reset. -/
def Obligations.ResultKeyChangesOnlyWhenAScanEnds : Prop :=
  (∀ s : State, s.resultWord.extractLsb' 0 8 = s.key) ∧ State.reset.key = 0x00#8 ∧
  ∀ s t : State, s.positionOk → step s = .next t → s.agenda.head? ≠ some .reset →
    (∀ p, s.seq = .running p → decode p.word = some .scanKey → t.seq = .idle →
      (∀ r c, p.todo = [.releaseRead r c] → t.key = keymap r c) ∧
      ((∀ r c, p.todo ≠ [.releaseRead r c]) → t.key = 0x00#8)) ∧
    ((∀ p, s.seq = .running p → decode p.word = some .scanKey → t.seq ≠ .idle) → t.key = s.key)

/-! ### Events, positions and lines -/

/-- R46, R48, R68: a step performs at most one event, only while an operation runs, and the pins change exactly as that
event says. -/
def Obligations.EachStepPerformsAtMostOneEvent : Prop :=
  ∀ s t : State, step s = .next t →
    (t.trace = s.trace ∧ t.pins = s.pins) ∨
    (∃ e, s.busy = true ∧ t.trace = s.trace ++ [e] ∧ t.pins = s.pins.afterEvent e)

/-- R12, R48: the engine's turn performs the event of the first action still to perform, and for an action that reads nothing
the rest of them is what is left; a running operation always has such an action; an idle engine does nothing. -/
def Obligations.EngineTurnPerformsTheNextEvent : Prop :=
  ∀ s : State, s.positionOk → (s.agenda = [] ∨ s.agenda.head? = some .engine) →
    (∀ (p : Progress) (a : Action) (rest : List Action), s.seq = .running p → p.todo = a :: rest →
      ∃ t, step s = .next t ∧ t.trace = s.trace ++ [a.event s.nextDraw] ∧
        t.pins = s.pins.afterEvent (a.event s.nextDraw) ∧
        (a.reads = false → t.todo = rest ∧ t.draws = s.draws ∧ t.drawCount = s.drawCount) ∧
        t.agenda = s.agenda.tail ∧ t.replies = s.replies ∧ t.faultIllegal = s.faultIllegal ∧
        t.faultOverrun = s.faultOverrun ∧ t.mode = s.mode) ∧
    (s.busy = true → ∃ p a rest, s.seq = .running p ∧ p.todo = a :: rest) ∧
    (s.seq = .idle → step s = .next { s with agenda := s.agenda.tail })

/-- R67, R75, R91, R92, R93: what a read of the level `l` leaves to perform: a poll goes on with another pulse and sample on 1;
a low column is debounced and read again; a column low again awaits its release, and any other goes on with the scan; the
release wait reads again on 0 and ends the scan with the key's code on 1. -/
def Obligations.EachReadSteersTheSequence : Prop :=
  ∀ (s : State) (w : Word) (r c : Fin 4) (rest : List Action) (smp : Option Level) (ans : Option Byte) (l : Level)
    (ds : List Level), s.agenda = [] → s.draws = l :: ds →
    (s.seq = .running ⟨w, .pollRead :: rest, smp, ans⟩ →
      ∃ t, step s = .next t ∧ t.draws = ds ∧ t.todo = if l = .low then rest else
        [.write .e .high, .delay .en, .write .e .low, .delay .en, .pollRead] ++ rest) ∧
    (s.seq = .running ⟨w, .scanRead r c :: rest, smp, ans⟩ →
      ∃ t, step s = .next t ∧ t.draws = ds ∧
        t.todo = if l = .high then rest else .delay .deb :: .confirmRead r c :: rest) ∧
    (s.seq = .running ⟨w, .confirmRead r c :: rest, smp, ans⟩ →
      ∃ t, step s = .next t ∧ t.draws = ds ∧ t.todo = if l = .high then rest else [.releaseRead r c]) ∧
    (s.seq = .running ⟨w, [.releaseRead r c], smp, ans⟩ →
      ∃ t, step s = .next t ∧ t.draws = ds ∧ (l = .low → t.todo = [.releaseRead r c] ∧ t.key = s.key) ∧
        (l = .high → t.seq = .idle ∧ t.key = keymap r c))

/-- R34, R48, R51: every step keeps the sequencer at a position of the operation that its accepted word stands for. -/
def Obligations.EveryStepKeepsTheSequencerAtAPosition : Prop :=
  ∀ s t : State, s.positionOk → step s = .next t → t.positionOk

/-- The invariants of the sequencer and of the data lines hold after power-on reset (R36, R113). -/
def Obligations.PositionAndDirectionsHoldAtReset : Prop :=
  State.reset.positionOk ∧ State.reset.directionsOk

/-- R29: every step but a reset keeps the lines of DA(MODE) inputs inside a busy poll and outputs everywhere else. (A reset
inside a poll writes no direction, R37; assumption log 10.) -/
def Obligations.DataLinesAreInputsOnlyInsideAPoll : Prop :=
  ∀ s t : State, s.positionOk → s.directionsOk → s.agenda.head? ≠ some .reset → step s = .next t → t.directionsOk

/-- R69, R75: whenever the busy flag is about to be sampled, D7 is an input and the block drives no level on it. -/
def Obligations.BusyFlagIsSampledOnAnInputLine : Prop :=
  ∀ (s : State) (p : Progress) (rest : List Action), s.positionOk → s.directionsOk → s.seq = .running p →
    p.todo = .pollRead :: rest → s.pins.data[7].dir = .input ∧ s.driven (.data 7) = none

/-- R87: if CS1 and CS2 are not both 1, no step makes them so. -/
def Obligations.ChipSelectsAreNeverBothHigh : Prop :=
  (∀ s t : State, s.chipSelectsOk → step s = .next t → t.chipSelectsOk) ∧
  (∀ s : State, s.chipSelectsOk → ¬(s.pins.cs1 = .high ∧ s.pins.cs2 = .high)) ∧
  (∀ s : State, s.seq = .idle → ¬(s.pins.cs1 = .high ∧ s.pins.cs2 = .high) → s.chipSelectsOk)

/-- R26, R27, R32, R93: only CMD_TO_CHIP and SET_CURSOR change the chip selects, only SCAN_KEY the rows, and SCAN_KEY no
LCD line. -/
def Obligations.EachLineChangesOnlyUnderItsWriters : Prop :=
  ∀ (s t : State), s.positionOk → step s = .next t →
    (∀ p i, s.seq = .running p → decode p.word = some i →
      ((∀ code chip, i ≠ .cmdToChip code chip) → (∀ page column chip, i ≠ .setCursor page column chip) →
        t.pins.cs1 = s.pins.cs1 ∧ t.pins.cs2 = s.pins.cs2) ∧
      (i ≠ .scanKey → t.pins.rows = s.pins.rows) ∧
      (i = .scanKey → t.pins.rs = s.pins.rs ∧ t.pins.rw = s.pins.rw ∧ t.pins.e = s.pins.e ∧
        t.pins.data = s.pins.data)) ∧
    (s.seq = .idle → t.pins = s.pins)

/-- R30: in FOUR_BIT nothing writes, redirects or reads D0 to D3. -/
def Obligations.FourBitModeNeverTouchesTheLowDataLines : Prop :=
  ∀ s t : State, s.positionOk → s.mode = .fourBit → step s = .next t →
    ∀ i : Fin 8, i.val < 4 → t.pins.data[i] = s.pins.data[i] ∧
      ∀ e, t.trace = s.trace ++ [e] → e.line ≠ some (.data i)

/-- R31: a direction change keeps every latch, and a line made an output drives the level last written to it. -/
def Obligations.DirectionChangesKeepEveryLatch : Prop :=
  ∀ (s t : State) (i : Fin 8) (d : Dir), step s = .next t → t.trace = s.trace ++ [.dir i d] →
    (∀ line, t.pins.level line = s.pins.level line) ∧ t.pins.data[i].dir = d ∧
    (d = .output → t.driven (.data i) = some (s.pins.level (.data i)))

/-! ### Each operation, from acceptance to its end -/

/-- R77: INIT from an idle engine, for whatever INIT sequences the build gave: the power-up delay, then the command frames back
to back in EIGHT_BIT, or each followed by a busy poll in FOUR_BIT; and nothing but the pins, the trace and the answers used.
After reset the sequences are the spec's decided defaults (D9, assumption log 17). -/
def Obligations.InitPerformsItsCommandSequence : Prop :=
  (∀ (s : State), s.seq = .idle → s.agenda = [] → s.mode = .eightBit →
    let tr := Event.dly .powerUp :: s.initSeq8.flatMap (frameTrace .eightBit .low)
    ∃ p, exec .init s = .next { s with seq := .running p } ∧
      RunsTo { s with seq := .running p } tr { s with pins := s.pins.after tr, trace := s.trace ++ tr }) ∧
  (∀ (s : State) (ones : List Nat) (rest : List Level), s.seq = .idle → s.agenda = [] → s.mode = .fourBit →
    ones.length = s.initSeq4.length → s.draws = ones.flatMap pollDraws ++ rest →
    let tr := Event.dly .powerUp ::
      (s.initSeq4.zip ones).flatMap (fun x => frameTrace .fourBit .low x.1 ++ pollTrace .fourBit x.2)
    ∃ p, exec .init s = .next { s with seq := .running p } ∧
      RunsTo { s with seq := .running p } tr
        { s with pins := s.pins.after tr, trace := s.trace ++ tr, draws := rest }) ∧
  State.reset.initSeq4 = [0x02#8, 0x28#8, 0x14#8, 0x0F#8, 0x01#8, 0x06#8] ∧
  State.reset.initSeq8 = [0x38#8, 0x14#8, 0x0F#8, 0x01#8, 0x06#8]

/-- R78: SEND_CMD of any byte from an idle engine: the command frame alone in EIGHT_BIT; in FOUR_BIT then one busy poll. -/
def Obligations.SendCmdSendsItsByteUnchanged : Prop :=
  (∀ (s : State) (code : Byte), s.seq = .idle → s.agenda = [] → s.mode = .eightBit →
    let tr := frameTrace .eightBit .low code
    ∃ p, exec (.sendCmd code) s = .next { s with seq := .running p } ∧
      RunsTo { s with seq := .running p } tr { s with pins := s.pins.after tr, trace := s.trace ++ tr }) ∧
  (∀ (s : State) (code : Byte) (n : Nat) (rest : List Level), s.seq = .idle → s.agenda = [] → s.mode = .fourBit →
    s.draws = pollDraws n ++ rest →
    let tr := frameTrace .fourBit .low code ++ pollTrace .fourBit n
    ∃ p, exec (.sendCmd code) s = .next { s with seq := .running p } ∧
      RunsTo { s with seq := .running p } tr
        { s with pins := s.pins.after tr, trace := s.trace ++ tr, draws := rest })

/-- R79: PRINT_CHAR of any byte, 0x00 among them, in either mode: a data frame, then one busy poll. -/
def Obligations.PrintCharSendsDataThenPolls : Prop :=
  ∀ (s : State) (ch : Byte) (n : Nat) (rest : List Level), s.seq = .idle → s.agenda = [] →
    s.draws = pollDraws n ++ rest →
    let tr := frameTrace s.mode .high ch ++ pollTrace s.mode n
    ∃ p, exec (.printChar ch) s = .next { s with seq := .running p } ∧
      RunsTo { s with seq := .running p } tr
        { s with pins := s.pins.after tr, trace := s.trace ++ tr, draws := rest }

/-- R80: CLEAR in either mode: the command frame of 0x01, then exactly one busy poll. -/
def Obligations.ClearSendsOneThenPollsOnce : Prop :=
  ∀ (s : State) (n : Nat) (rest : List Level), s.seq = .idle → s.agenda = [] → s.draws = pollDraws n ++ rest →
    let tr := frameTrace s.mode .low 0x01#8 ++ pollTrace s.mode n
    ∃ p, exec .clear s = .next { s with seq := .running p } ∧
      RunsTo { s with seq := .running p } tr
        { s with pins := s.pins.after tr, trace := s.trace ++ tr, draws := rest }

/-- R81: WAIT_BUSY in either mode: one busy poll, which samples at least once. -/
def Obligations.WaitBusyPollsUntilD7ReadsLow : Prop :=
  ∀ (s : State) (n : Nat) (rest : List Level), s.seq = .idle → s.agenda = [] → s.draws = pollDraws n ++ rest →
    let tr := pollTrace s.mode n
    ∃ p, exec .waitBusy s = .next { s with seq := .running p } ∧
      RunsTo { s with seq := .running p } tr
        { s with pins := s.pins.after tr, trace := s.trace ++ tr, draws := rest }

/-- R84: CMD_TO_CHIP of any byte to any of the four CHIP values, in either mode: its word; select, command frame, release; it reads
nothing and so uses no answer. -/
def Obligations.CmdToChipFramesItsByteBetweenSelectAndRelease : Prop :=
  ∀ (s : State) (code : Byte) (chip : BitVec 2), s.seq = .idle → s.agenda = [] →
    let tr := chipTrace s.mode code chip
    encode (.cmdToChip code chip) = 0x60000000#32 ||| chip.zeroExtend 32 <<< 16 ||| code.zeroExtend 32 ∧
    ∃ p, exec (.cmdToChip code chip) s = .next { s with seq := .running p } ∧
      RunsTo { s with seq := .running p } tr { s with pins := s.pins.after tr, trace := s.trace ++ tr }

/-- R85, R86: SET_CURSOR in either mode: its word; the page command 0xB8 | (page & 0x07), then the column command
0x40 | (column & 0x7F), both to the chip; no poll between or after. -/
def Obligations.SetCursorSendsPageThenColumn : Prop :=
  ∀ (s : State) (page column : Byte) (chip : BitVec 2), s.seq = .idle → s.agenda = [] →
    let tr := chipTrace s.mode (0xB8#8 ||| (page &&& 0x07#8)) chip ++
      chipTrace s.mode (0x40#8 ||| (column &&& 0x7F#8)) chip
    encode (.setCursor page column chip) =
      0x50000000#32 ||| chip.zeroExtend 32 <<< 16 ||| column.zeroExtend 32 <<< 8 ||| page.zeroExtend 32 ∧
    ∃ p, exec (.setCursor page column chip) s = .next { s with seq := .running p } ∧
      RunsTo { s with seq := .running p } tr { s with pins := s.pins.after tr, trace := s.trace ++ tr }

/-- R93, with R90, R91, R92: SCAN_KEY runs its pseudocode: on every answer sequence on which the pass ends, the machine
performs exactly the pass's events, leaves its key in RESULT.KEY and changes nothing else. -/
def Obligations.ScanKeyRunsItsPseudocode : Prop :=
  ∀ (s : State) (tr : List Event) (key : Byte) (rest : List Level), s.seq = .idle → s.agenda = [] →
    scanPass scanOrder s.draws = some (tr, key, rest) →
    ∃ p, exec .scanKey s = .next { s with seq := .running p } ∧
      RunsTo { s with seq := .running p } tr
        { s with pins := s.pins.after tr, trace := s.trace ++ tr, draws := rest, key := key }

/-- R91, R92, R94, R124: if every column before (r, c) in row-major order reads high, or low and then high at the confirming
read, and (r, c) reads low twice and is then held for n reads, the scan ends with the code of (r, c), and its delays are the
(r+1) row drives and one debounce more than there were bounces. -/
def Obligations.ScanReturnsTheFirstConfirmedKey : Prop :=
  ∀ (s : State) (r c : Fin 4) (bounces : List Bool) (n : Nat) (rest : List Level), s.seq = .idle → s.agenda = [] →
    bounces.length = 4 * r.val + c.val →
    s.draws = bounces.flatMap (fun b => if b then [Level.low, Level.high] else [Level.high]) ++
      [.low, .low] ++ List.replicate n .low ++ .high :: rest →
    ∃ p tr, exec .scanKey s = .next { s with seq := .running p } ∧
      RunsTo { s with seq := .running p } tr
        { s with pins := s.pins.after tr, trace := s.trace ++ tr, draws := rest, key := keymap r c } ∧
      minDuration tr = (r.val + 1) * duration .row + (bounces.count true + 1) * duration .deb

/-- R91, R93: if all sixteen columns read high, or low and then high at the confirming read, the scan ends with 0x00. -/
def Obligations.ScanWithoutAKeyReturnsZero : Prop :=
  ∀ (s : State) (bounces : List Bool) (rest : List Level), s.seq = .idle → s.agenda = [] → bounces.length = 16 →
    s.draws = bounces.flatMap (fun b => if b then [Level.low, Level.high] else [Level.high]) ++ rest →
    ∃ p tr, exec .scanKey s = .next { s with seq := .running p } ∧
      RunsTo { s with seq := .running p } tr
        { s with pins := s.pins.after tr, trace := s.trace ++ tr, draws := rest, key := 0x00#8 } ∧
      minDuration tr = 4 * duration .row + bounces.count true * duration .deb

/-- R95: the rows after a scan, on every answer sequence on which it ends: after a key of row r, ROWr = 0 and the others 1;
after "no key", ROW3 = 0 and the others 1. -/
def Obligations.RowLinesAfterAScan : Prop :=
  ∀ (s : State) (tr : List Event) (key : Byte) (rest : List Level), s.seq = .idle → s.agenda = [] →
    scanPass scanOrder s.draws = some (tr, key, rest) →
    ∃ u t, exec .scanKey s = .next u ∧ runs tr.length u = .next t ∧ t.seq = .idle ∧
      ((t.key = 0x00#8 ∧ ∀ q : Fin 4, t.pins.rows[q] = if q = 3 then .low else .high) ∨
        (∃ r c : Fin 4, t.key = keymap r c ∧ ∀ q : Fin 4, t.pins.rows[q] = if q = r then .low else .high))

/-! ### Hangs -/

/-- R75, R100: a busy poll, of whatever operation, repeats for every sample of 1, without bound: after any number of them
the operation still runs, at the same place, and RESULT.KEY is as it was. -/
def Obligations.BusyPollRepeatsForEveryOne : Prop :=
  ∀ (s : State) (w : Word) (after : List Action) (smp : Option Level) (ans : Option Byte) (n : Nat)
    (rest : List Level),
    s.agenda = [] → s.seq = .running ⟨w, .pollRead :: after, smp, ans⟩ →
    s.draws = List.replicate (n + 1) .high ++ rest →
    let tr := (List.replicate (n + 1) (Event.r .d7 .high :: pulseTrace)).flatten
    RunsTo s tr
      { s with
        seq := .running ⟨w, .pollRead :: after, some .high, ans⟩
        pins := s.pins.after tr
        trace := s.trace ++ tr
        draws := rest }

/-- R92, R100: the release wait repeats for every read of 0, without bound, with no delay between the reads. -/
def Obligations.ReleaseWaitRepeatsForEveryZero : Prop :=
  ∀ (s : State) (w : Word) (r c : Fin 4) (smp : Option Level) (ans : Option Byte) (n : Nat) (rest : List Level),
    s.agenda = [] → s.seq = .running ⟨w, [.releaseRead r c], smp, ans⟩ →
    s.draws = List.replicate (n + 1) .low ++ rest →
    let tr := List.replicate (n + 1) (Event.r (.col c) .low)
    RunsTo s tr
      { s with
        seq := .running ⟨w, [.releaseRead r c], some .low, ans⟩
        trace := s.trace ++ tr
        draws := rest }

/-! ### What the lines carry -/

/-- R70: an enable pulse, whatever the level of E before it, performs its four events and leaves E = 0 and every other line
as it was. -/
def Obligations.EnablePulseLeavesELow : Prop :=
  ∀ (s : State) (w : Word) (after : List Action) (smp : Option Level) (ans : Option Byte),
    s.agenda = [] → s.seq = .running ⟨w, enablePulse ++ after, smp, ans⟩ → after ≠ [] →
    RunsTo s [.w .e .high, .dly .en, .w .e .low, .dly .en]
      { s with
        seq := .running ⟨w, after, smp, ans⟩
        pins := { s.pins with e := .low }
        trace := s.trace ++ [.w .e .high, .dly .en, .w .e .low, .dly .en] }

/-- R44, R45, R64: when the enable line rises in the frame of a SEND_CMD, RS = 0, RW = 0 and the data lines carry the command
byte bit for bit; in FOUR_BIT the first pulse of the frame carries bits 7 to 4 on D7 to D4 and the second bits 3 to 0. -/
def Obligations.SendCmdFramePulsesCarryItsByte : Prop :=
  ∀ (s : State) (code : Byte), s.seq = .idle → s.agenda = [] →
    ∃ t, exec (.sendCmd code) s = .next t ∧
      (s.mode = .eightBit →
        ∃ u, runs 11 t = .next u ∧ u.pins.e = .high ∧ u.pins.rs = .low ∧ u.pins.rw = .low ∧
          ∀ i : Fin 8, u.pins.data[i].level = levelOf (code.getLsbD i)) ∧
      (s.mode = .fourBit →
        (∃ u, runs 7 t = .next u ∧ u.pins.e = .high ∧ u.pins.rs = .low ∧ u.pins.rw = .low ∧
          ∀ i : Fin 8, 4 ≤ i.val → u.pins.data[i].level = levelOf (code.getLsbD i)) ∧
        (∃ u, runs 15 t = .next u ∧ u.pins.e = .high ∧ u.pins.rs = .low ∧ u.pins.rw = .low ∧
          ∀ i : Fin 8, 4 ≤ i.val → u.pins.data[i].level = levelOf (code.getLsbD (i - 4))))

/-- R44, R45, R58, R64: every rise of the enable line, over the whole run of each LCD operation started with the data lines as
outputs (P-DIR): command writes (RS = 0, RW = 0) that carry the bytes of INIT, SEND_CMD, CLEAR, CMD_TO_CHIP and SET_CURSOR, the
data write (RS = 1) of PRINT_CHAR, and status reads (RS = 0, RW = 1, data lines inputs), one per sample; the chip selects as
the operation found them, or as CHIP says. -/
def Obligations.EveryEnablePulseIsTheBusCycleOfItsRule : Prop :=
  ∀ s : State, s.seq = .idle → s.agenda = [] → s.launched →
    let bytes := writeCycles s.mode s.pins.cs1 s.pins.cs2
    let poll := fun (n : Nat) => List.replicate (n + 1) (statusCycle s.mode s.pins.cs1 s.pins.cs2)
    let toChip := fun (chip : BitVec 2) (b : Byte) =>
      writeCycles s.mode (if chip = 0b01#2 then .high else .low) (if chip = 0b10#2 then .high else .low) .low b
    (s.mode = .eightBit →
      RunsWith .init s (fun tr => busCycles s.mode s.pins tr = s.initSeq8.flatMap (bytes .low)) ∧
      ∀ code : Byte, RunsWith (.sendCmd code) s fun tr => busCycles s.mode s.pins tr = bytes .low code) ∧
    (s.mode = .fourBit →
      (∀ (ones : List Nat) (rest : List Level), ones.length = s.initSeq4.length →
        s.draws = ones.flatMap pollDraws ++ rest →
        RunsWith .init s fun tr => busCycles s.mode s.pins tr =
          (s.initSeq4.zip ones).flatMap fun x => bytes .low x.1 ++ poll x.2) ∧
      ∀ (code : Byte) (n : Nat) (rest : List Level), s.draws = pollDraws n ++ rest →
        RunsWith (.sendCmd code) s fun tr => busCycles s.mode s.pins tr = bytes .low code ++ poll n) ∧
    (∀ (n : Nat) (rest : List Level), s.draws = pollDraws n ++ rest →
      (∀ ch : Byte, RunsWith (.printChar ch) s fun tr => busCycles s.mode s.pins tr = bytes .high ch ++ poll n) ∧
      RunsWith .clear s (fun tr => busCycles s.mode s.pins tr = bytes .low 0x01#8 ++ poll n) ∧
      RunsWith .waitBusy s (fun tr => busCycles s.mode s.pins tr = poll n)) ∧
    (∀ (code : Byte) (chip : BitVec 2),
      RunsWith (.cmdToChip code chip) s fun tr => busCycles s.mode s.pins tr = toChip chip code) ∧
    (∀ (page column : Byte) (chip : BitVec 2),
      RunsWith (.setCursor page column chip) s fun tr => busCycles s.mode s.pins tr =
      toChip chip (0xB8#8 ||| (page &&& 0x07#8)) ++ toChip chip (0x40#8 ||| (column &&& 0x7F#8)))

/-- R58, R84, R87: from the end of CS_SELECT to the start of CS_RELEASE exactly the addressed chip's line is high, neither
for an unrecognized CHIP; at the end both are low. -/
def Obligations.OnlyTheAddressedChipIsSelectedDuringItsFrame : Prop :=
  ∀ (s : State) (code : Byte) (chip : BitVec 2), s.seq = .idle → s.agenda = [] →
    ∃ t, exec (.cmdToChip code chip) s = .next t ∧
      (∀ k, 2 ≤ k → k + 2 ≤ (chipTrace s.mode code chip).length →
        ∃ u, runs k t = .next u ∧
          u.pins.cs1 = (if chip = 0b01#2 then .high else .low) ∧
          u.pins.cs2 = (if chip = 0b10#2 then .high else .low)) ∧
      (∃ u, runs (chipTrace s.mode code chip).length t = .next u ∧ u.seq = .idle ∧ u.pins.cs1 = .low ∧
        u.pins.cs2 = .low)

/-- R73, R74, R75: the levels and directions a frame and a busy poll leave, from any pins: a frame leaves RS as given,
RW = 0, E = 0 and the byte (the low nibble in FOUR_BIT) on the data lines; a poll leaves RS = 0, RW = 1, E = 0, every latch of
a data line as it was, and DA(MODE) outputs. Neither touches CS1, CS2 or the rows. -/
def Obligations.FrameAndPollLeaveTheseLevels : Prop :=
  ∀ (p : Pins) (mode : Mode) (rs : Level) (b : Byte) (n : Nat),
    (let q := p.after (frameTrace mode rs b)
     q.rs = rs ∧ q.rw = .low ∧ q.e = .low ∧ q.cs1 = p.cs1 ∧ q.cs2 = p.cs2 ∧ q.rows = p.rows ∧
     (∀ i : Fin 8, q.data[i].dir = p.data[i].dir) ∧
     (mode = .eightBit → ∀ i : Fin 8, q.data[i].level = levelOf (b.getLsbD i)) ∧
     (mode = .fourBit → ∀ i : Fin 8,
       q.data[i].level = if 4 ≤ i.val then levelOf (b.getLsbD (i - 4)) else p.data[i].level)) ∧
    (let q := p.after (pollTrace mode n)
     q.rs = .low ∧ q.rw = .high ∧ q.e = .low ∧ q.cs1 = p.cs1 ∧ q.cs2 = p.cs2 ∧ q.rows = p.rows ∧
     (∀ i : Fin 8, q.data[i].level = p.data[i].level) ∧
     (∀ i : Fin 8, q.data[i].dir = if i ∈ dataLines mode then .output else p.data[i].dir))

/-! ### Durations, bytes, assembler, key table -/

/-- R123, R124: the least duration of each LCD operation's run, from acceptance to its end, counting only its delays, with
p = n + 1 samples in a poll; INIT's for whatever sequences the build gave, and with five and six commands as R124 has them; and
the two stated minimums. (In nanoseconds, the model's unit, assumption log 11. SCAN_KEY's rows of R124 stand in
ScanReturnsTheFirstConfirmedKey and ScanWithoutAKeyReturnsZero.) -/
def Obligations.OperationsTakeAtLeastTheirDelays : Prop :=
  (∀ s : State, s.seq = .idle → s.agenda = [] → s.mode = .eightBit →
    (∀ code : Byte, RunsWith (.sendCmd code) s fun tr => minDuration tr = 2 * duration .en) ∧
    (∀ (n : Nat) (rest : List Level), s.draws = pollDraws n ++ rest →
      (∀ ch : Byte, RunsWith (.printChar ch) s fun tr => minDuration tr = (2 + 2 * (n + 1)) * duration .en) ∧
      RunsWith .clear s (fun tr => minDuration tr = (2 + 2 * (n + 1)) * duration .en) ∧
      RunsWith .waitBusy s (fun tr => minDuration tr = 2 * (n + 1) * duration .en)) ∧
    (∀ (code : Byte) (chip : BitVec 2),
      RunsWith (.cmdToChip code chip) s fun tr => minDuration tr = 2 * duration .en) ∧
    (∀ (page column : Byte) (chip : BitVec 2),
      RunsWith (.setCursor page column chip) s fun tr => minDuration tr = 4 * duration .en) ∧
    RunsWith .init s (fun tr => minDuration tr = duration .powerUp + 2 * s.initSeq8.length * duration .en ∧
      (s.initSeq8.length = 5 → minDuration tr = duration .powerUp + 10 * duration .en))) ∧
  (∀ s : State, s.seq = .idle → s.agenda = [] → s.mode = .fourBit →
    (∀ (n : Nat) (rest : List Level), s.draws = pollDraws n ++ rest →
      (∀ code : Byte, RunsWith (.sendCmd code) s fun tr => minDuration tr = (4 + 2 * (n + 1)) * duration .en) ∧
      (∀ ch : Byte, RunsWith (.printChar ch) s fun tr => minDuration tr = (4 + 2 * (n + 1)) * duration .en) ∧
      RunsWith .clear s (fun tr => minDuration tr = (4 + 2 * (n + 1)) * duration .en) ∧
      RunsWith .waitBusy s (fun tr => minDuration tr = 2 * (n + 1) * duration .en)) ∧
    (∀ (code : Byte) (chip : BitVec 2),
      RunsWith (.cmdToChip code chip) s fun tr => minDuration tr = 4 * duration .en) ∧
    (∀ (page column : Byte) (chip : BitVec 2),
      RunsWith (.setCursor page column chip) s fun tr => minDuration tr = 8 * duration .en) ∧
    (∀ (ones : List Nat) (rest : List Level), ones.length = s.initSeq4.length →
        s.draws = ones.flatMap pollDraws ++ rest →
      RunsWith .init s fun tr =>
        minDuration tr = duration .powerUp + (ones.map fun n => (4 + 2 * (n + 1)) * duration .en).sum ∧
        (s.initSeq4.length = 6 → duration .powerUp + 36 * duration .en ≤ minDuration tr))) ∧
  5000 ≤ duration .row ∧ 20000 ≤ duration .deb

/-- R86: the page and column bytes: their formulas and ranges, and the laws R86 marks as derived from them: their aliases, and
that they meet neither each other nor a byte of the INIT sequences, these at their decided defaults (D9, assumption log
17). -/
def Obligations.PageAndColumnBytesFollowTheirFormulas : Prop :=
  (∀ p : Byte, setPageByte p = 0xB8#8 ||| (p &&& 0x07#8) ∧ 0xB8 ≤ (setPageByte p).toNat ∧
    (setPageByte p).toNat ≤ 0xBF ∧ setPageByte p = setPageByte (p % 8#8) ∧
    setPageByte p ∉ defaultInitSeq4 ++ defaultInitSeq8) ∧
  (∀ c : Byte, setColumnByte c = 0x40#8 ||| (c &&& 0x7F#8) ∧ 0x40 ≤ (setColumnByte c).toNat ∧
    (setColumnByte c).toNat ≤ 0x7F ∧ setColumnByte c = 0x40#8 ||| (c &&& 0x3F#8) ∧
    (c.toNat < 64 → setColumnByte (c + 64#8) = setColumnByte c) ∧ setColumnByte c ∉ defaultInitSeq4 ++ defaultInitSeq8) ∧
  (∀ p c : Byte, setPageByte p ≠ setColumnByte c)

/-- R63, R80: SET_PAGE p is CMD_TO_CHIP 0xB8 | (p & 0x07) and SET_COLUMN c is CMD_TO_CHIP 0x40 | (c & 0x7F), for any numbers
p and c, above 255 too (the model's choice, assumption log 13). What the spec marks as derived: SET_CURSOR has the event
sequence of the one followed by that of the other; CLEAR has SEND_CMD 0x01's in FOUR_BIT and SEND_CMD 0x01's followed by
WAIT_BUSY's in EIGHT_BIT. -/
def Obligations.SetCursorAndClearAreTheirTwoParts : Prop :=
  (∀ (mode : Mode) (codes : List Byte) (page column : Nat) (chip : ChipName),
    let a := Instr.cmdToChip (BitVec.ofNat 8 (0xB8 ||| (page &&& 0x07))) (chipOfName chip)
    let b := Instr.cmdToChip (BitVec.ofNat 8 (0x40 ||| (column &&& 0x7F))) (chipOfName chip)
    assembleLine (.setPage page chip) = some [encode a] ∧ assembleLine (.setColumn column chip) = some [encode b] ∧
    scriptOf mode codes (.setCursor (BitVec.ofNat 8 page) (BitVec.ofNat 8 column) (chipOfName chip)) =
      scriptOf mode codes a ++ scriptOf mode codes b) ∧
  (∀ codes, scriptOf .fourBit codes .clear = scriptOf .fourBit codes (.sendCmd 0x01#8)) ∧
  (∀ codes, scriptOf .eightBit codes .clear =
    scriptOf .eightBit codes (.sendCmd 0x01#8) ++ scriptOf .eightBit codes .waitBusy)

/-- R62: PRINT_STRING gives one PRINT_CHAR word per byte, in order, up to and excluding the first 0x00 or the end. -/
def Obligations.PrintStringStopsAtTheFirstZero : Prop :=
  ∀ a b : List Byte, (∀ x ∈ a, x ≠ 0x00#8) →
    assembleLine (.printString (a ++ 0x00#8 :: b)) = some (a.map fun x => 0x30000000#32 ||| x.zeroExtend 32) ∧
    assembleLine (.printString a) = some (a.map fun x => 0x30000000#32 ||| x.zeroExtend 32)

/-- R61: the word of each assembler line, with CS1 = 0b01, CS2 = 0b10, CHIP0 = 0b00 and CHIP3 = 0b11, and the rejection of an
operand that does not fit in 8 bits. -/
def Obligations.AssemblerGivesEachLineItsWord : Prop :=
  (∀ (n m : Nat) (chip : ChipName) (k : Nat), n < 256 → m < 256 →
    (chip, k) ∈ [(ChipName.cs1, 0b01), (.cs2, 0b10), (.chip0, 0b00), (.chip3, 0b11)] →
    assembleLine .init = some [0x10000000#32] ∧
    assembleLine (.sendCmd n) = some [BitVec.ofNat 32 (0x20000000 + n)] ∧
    assembleLine (.printChar n) = some [BitVec.ofNat 32 (0x30000000 + n)] ∧
    assembleLine .clear = some [0x40000000#32] ∧
    assembleLine (.setCursor n m chip) = some [BitVec.ofNat 32 (0x50000000 + k * 0x10000 + m * 0x100 + n)] ∧
    assembleLine (.cmdToChip n chip) = some [BitVec.ofNat 32 (0x60000000 + k * 0x10000 + n)] ∧
    assembleLine .waitBusy = some [0x70000000#32] ∧ assembleLine .scanKey = some [0x80000000#32]) ∧
  (∀ (n m : Nat) (chip : ChipName), 256 ≤ n →
    assembleLine (.sendCmd n) = none ∧ assembleLine (.printChar n) = none ∧
    assembleLine (.setCursor n m chip) = none ∧ assembleLine (.setCursor m n chip) = none ∧
    assembleLine (.cmdToChip n chip) = none)

/-- R88, R89: the key table gives each of the sixteen codes exactly once, 'B' = 0x42 at row 2, column 3, and never the
"no key" code. -/
def Obligations.KeymapGivesEachSymbolOnce : Prop :=
  (∀ r c r' c' : Fin 4, keymap r c = keymap r' c' → r = r' ∧ c = c') ∧
  (∀ code : Byte, (∃ r c, keymap r c = code) ↔
    code ∈ [0x30#8, 0x31#8, 0x32#8, 0x33#8, 0x34#8, 0x35#8, 0x36#8, 0x37#8, 0x38#8, 0x39#8,
      0x41#8, 0x42#8, 0x43#8, 0x44#8, 0x2A#8, 0x23#8]) ∧
  keymap 2 3 = 0x42#8 ∧ ∀ r c, keymap r c ≠ 0x00#8

/-! ### Isolation -/

/-- R12, R46, R47: however the host's admitted reads fall between the engine's turns, the engine's state, the pins and the
trace are those of the same number of engine turns without them. -/
def Obligations.HostReadsNeverDisturbTheEngine : Prop :=
  ∀ (s : State) (turns : List Turn),
    (∀ x ∈ turns, x = .engine ∨ x = .host (.read 0x04 4) ∨ x = .host (.read 0x08 4) ∨ x = .host (.read 0x0C 4)) →
    ∃ t, runs turns.length { s with agenda := turns } = .next t ∧ t.agenda = [] ∧
      let u := State.engineTurn^[turns.count .engine] s
      t.seq = u.seq ∧ t.key = u.key ∧ t.pins = u.pins ∧ t.trace = u.trace ∧ t.draws = u.draws ∧
      t.drawCount = u.drawCount ∧ t.faultIllegal = u.faultIllegal ∧ t.faultOverrun = u.faultOverrun ∧
      t.mode = u.mode ∧ t.initSeq4 = u.initSeq4 ∧ t.initSeq8 = u.initSeq8
end

