-- ==== Sys2Proof/Laws/State.lean ====
section
/-! SUPPORT. One lemma per field per update of State, so that no later proof unfolds a record update. -/

namespace Sys2Proof.Machine

/-- INIT's bytes are those of any state with the same parameters. -/
theorem initSeq_congr {s t : State} (hm : t.mode = s.mode) (h4 : t.initSeq4 = s.initSeq4) (h8 : t.initSeq8 = s.initSeq8) :
    t.initSeq = s.initSeq := by
  simp [State.initSeq, hm, h4, h8]

/-! ### emit -/

@[simp] theorem emit_seq (s : State) (e : Event) :
    (s.emit e).seq = s.seq := rfl

@[simp] theorem emit_faultIllegal (s : State) (e : Event) :
    (s.emit e).faultIllegal = s.faultIllegal := rfl

@[simp] theorem emit_faultOverrun (s : State) (e : Event) :
    (s.emit e).faultOverrun = s.faultOverrun := rfl

@[simp] theorem emit_key (s : State) (e : Event) :
    (s.emit e).key = s.key := rfl

@[simp] theorem emit_mode (s : State) (e : Event) :
    (s.emit e).mode = s.mode := rfl

@[simp] theorem emit_initSeq4 (s : State) (e : Event) :
    (s.emit e).initSeq4 = s.initSeq4 := rfl

@[simp] theorem emit_initSeq8 (s : State) (e : Event) :
    (s.emit e).initSeq8 = s.initSeq8 := rfl

@[simp] theorem emit_pins (s : State) (e : Event) :
    (s.emit e).pins = s.pins := rfl

@[simp] theorem emit_draws (s : State) (e : Event) :
    (s.emit e).draws = s.draws := rfl

@[simp] theorem emit_drawCount (s : State) (e : Event) :
    (s.emit e).drawCount = s.drawCount := rfl

@[simp] theorem emit_agenda (s : State) (e : Event) :
    (s.emit e).agenda = s.agenda := rfl

@[simp] theorem emit_trace (s : State) (e : Event) :
    (s.emit e).trace = s.trace ++ [e] := rfl

@[simp] theorem emit_replies (s : State) (e : Event) :
    (s.emit e).replies = s.replies := rfl


/-! ### pinWrite -/

@[simp] theorem pinWrite_seq (s : State) (line : OutLine) (l : Level) :
    (s.pinWrite line l).seq = s.seq := rfl

@[simp] theorem pinWrite_faultIllegal (s : State) (line : OutLine) (l : Level) :
    (s.pinWrite line l).faultIllegal = s.faultIllegal := rfl

@[simp] theorem pinWrite_faultOverrun (s : State) (line : OutLine) (l : Level) :
    (s.pinWrite line l).faultOverrun = s.faultOverrun := rfl

@[simp] theorem pinWrite_key (s : State) (line : OutLine) (l : Level) :
    (s.pinWrite line l).key = s.key := rfl

@[simp] theorem pinWrite_mode (s : State) (line : OutLine) (l : Level) :
    (s.pinWrite line l).mode = s.mode := rfl

@[simp] theorem pinWrite_initSeq4 (s : State) (line : OutLine) (l : Level) :
    (s.pinWrite line l).initSeq4 = s.initSeq4 := rfl

@[simp] theorem pinWrite_initSeq8 (s : State) (line : OutLine) (l : Level) :
    (s.pinWrite line l).initSeq8 = s.initSeq8 := rfl

@[simp] theorem pinWrite_pins (s : State) (line : OutLine) (l : Level) :
    (s.pinWrite line l).pins = s.pins.setLevel line l := rfl

@[simp] theorem pinWrite_draws (s : State) (line : OutLine) (l : Level) :
    (s.pinWrite line l).draws = s.draws := rfl

@[simp] theorem pinWrite_drawCount (s : State) (line : OutLine) (l : Level) :
    (s.pinWrite line l).drawCount = s.drawCount := rfl

@[simp] theorem pinWrite_agenda (s : State) (line : OutLine) (l : Level) :
    (s.pinWrite line l).agenda = s.agenda := rfl

@[simp] theorem pinWrite_trace (s : State) (line : OutLine) (l : Level) :
    (s.pinWrite line l).trace = s.trace ++ [.w line l] := rfl

@[simp] theorem pinWrite_replies (s : State) (line : OutLine) (l : Level) :
    (s.pinWrite line l).replies = s.replies := rfl


/-! ### pinDir -/

@[simp] theorem pinDir_seq (s : State) (i : Fin 8) (d : Dir) :
    (s.pinDir i d).seq = s.seq := rfl

@[simp] theorem pinDir_faultIllegal (s : State) (i : Fin 8) (d : Dir) :
    (s.pinDir i d).faultIllegal = s.faultIllegal := rfl

@[simp] theorem pinDir_faultOverrun (s : State) (i : Fin 8) (d : Dir) :
    (s.pinDir i d).faultOverrun = s.faultOverrun := rfl

@[simp] theorem pinDir_key (s : State) (i : Fin 8) (d : Dir) :
    (s.pinDir i d).key = s.key := rfl

@[simp] theorem pinDir_mode (s : State) (i : Fin 8) (d : Dir) :
    (s.pinDir i d).mode = s.mode := rfl

@[simp] theorem pinDir_initSeq4 (s : State) (i : Fin 8) (d : Dir) :
    (s.pinDir i d).initSeq4 = s.initSeq4 := rfl

@[simp] theorem pinDir_initSeq8 (s : State) (i : Fin 8) (d : Dir) :
    (s.pinDir i d).initSeq8 = s.initSeq8 := rfl

@[simp] theorem pinDir_pins (s : State) (i : Fin 8) (d : Dir) :
    (s.pinDir i d).pins = s.pins.setDir i d := rfl

@[simp] theorem pinDir_draws (s : State) (i : Fin 8) (d : Dir) :
    (s.pinDir i d).draws = s.draws := rfl

@[simp] theorem pinDir_drawCount (s : State) (i : Fin 8) (d : Dir) :
    (s.pinDir i d).drawCount = s.drawCount := rfl

@[simp] theorem pinDir_agenda (s : State) (i : Fin 8) (d : Dir) :
    (s.pinDir i d).agenda = s.agenda := rfl

@[simp] theorem pinDir_trace (s : State) (i : Fin 8) (d : Dir) :
    (s.pinDir i d).trace = s.trace ++ [.dir i d] := rfl

@[simp] theorem pinDir_replies (s : State) (i : Fin 8) (d : Dir) :
    (s.pinDir i d).replies = s.replies := rfl


/-! ### delay -/

@[simp] theorem delay_seq (s : State) (t : Delay) :
    (s.delay t).seq = s.seq := rfl

@[simp] theorem delay_faultIllegal (s : State) (t : Delay) :
    (s.delay t).faultIllegal = s.faultIllegal := rfl

@[simp] theorem delay_faultOverrun (s : State) (t : Delay) :
    (s.delay t).faultOverrun = s.faultOverrun := rfl

@[simp] theorem delay_key (s : State) (t : Delay) :
    (s.delay t).key = s.key := rfl

@[simp] theorem delay_mode (s : State) (t : Delay) :
    (s.delay t).mode = s.mode := rfl

@[simp] theorem delay_initSeq4 (s : State) (t : Delay) :
    (s.delay t).initSeq4 = s.initSeq4 := rfl

@[simp] theorem delay_initSeq8 (s : State) (t : Delay) :
    (s.delay t).initSeq8 = s.initSeq8 := rfl

@[simp] theorem delay_pins (s : State) (t : Delay) :
    (s.delay t).pins = s.pins := rfl

@[simp] theorem delay_draws (s : State) (t : Delay) :
    (s.delay t).draws = s.draws := rfl

@[simp] theorem delay_drawCount (s : State) (t : Delay) :
    (s.delay t).drawCount = s.drawCount := rfl

@[simp] theorem delay_agenda (s : State) (t : Delay) :
    (s.delay t).agenda = s.agenda := rfl

@[simp] theorem delay_trace (s : State) (t : Delay) :
    (s.delay t).trace = s.trace ++ [.dly t] := rfl

@[simp] theorem delay_replies (s : State) (t : Delay) :
    (s.delay t).replies = s.replies := rfl


/-! ### dropDraw -/

@[simp] theorem dropDraw_seq (s : State) : s.dropDraw.seq = s.seq := by
  unfold State.dropDraw; split <;> rfl

@[simp] theorem dropDraw_faultIllegal (s : State) : s.dropDraw.faultIllegal = s.faultIllegal := by
  unfold State.dropDraw; split <;> rfl

@[simp] theorem dropDraw_faultOverrun (s : State) : s.dropDraw.faultOverrun = s.faultOverrun := by
  unfold State.dropDraw; split <;> rfl

@[simp] theorem dropDraw_key (s : State) : s.dropDraw.key = s.key := by
  unfold State.dropDraw; split <;> rfl

@[simp] theorem dropDraw_mode (s : State) : s.dropDraw.mode = s.mode := by
  unfold State.dropDraw; split <;> rfl

@[simp] theorem dropDraw_initSeq4 (s : State) : s.dropDraw.initSeq4 = s.initSeq4 := by
  unfold State.dropDraw; split <;> rfl

@[simp] theorem dropDraw_initSeq8 (s : State) : s.dropDraw.initSeq8 = s.initSeq8 := by
  unfold State.dropDraw; split <;> rfl

@[simp] theorem dropDraw_pins (s : State) : s.dropDraw.pins = s.pins := by
  unfold State.dropDraw; split <;> rfl

@[simp] theorem dropDraw_agenda (s : State) : s.dropDraw.agenda = s.agenda := by
  unfold State.dropDraw; split <;> rfl

@[simp] theorem dropDraw_trace (s : State) : s.dropDraw.trace = s.trace := by
  unfold State.dropDraw; split <;> rfl

@[simp] theorem dropDraw_replies (s : State) : s.dropDraw.replies = s.replies := by
  unfold State.dropDraw; split <;> rfl

@[simp] theorem dropDraw_draws (s : State) : s.dropDraw.draws = s.draws.tail := by
  unfold State.dropDraw; split <;> simp_all

theorem nextDraw_of_cons (s : State) (l : Level) (ls : List Level) (h : s.draws = l :: ls) : s.nextDraw = l := by
  simp [State.nextDraw, h]

theorem dropDraw_of_cons (s : State) (l : Level) (ls : List Level) (h : s.draws = l :: ls) :
    s.dropDraw = { s with draws := ls } := by
  simp [State.dropDraw, h]


/-! ### pinRead -/

@[simp] theorem pinRead_seq (s : State) (line : InLine) : (s.pinRead line).seq = s.seq := by
  simp [State.pinRead]

@[simp] theorem pinRead_faultIllegal (s : State) (line : InLine) : (s.pinRead line).faultIllegal = s.faultIllegal := by
  simp [State.pinRead]

@[simp] theorem pinRead_faultOverrun (s : State) (line : InLine) : (s.pinRead line).faultOverrun = s.faultOverrun := by
  simp [State.pinRead]

@[simp] theorem pinRead_key (s : State) (line : InLine) : (s.pinRead line).key = s.key := by
  simp [State.pinRead]

@[simp] theorem pinRead_mode (s : State) (line : InLine) : (s.pinRead line).mode = s.mode := by
  simp [State.pinRead]

@[simp] theorem pinRead_initSeq4 (s : State) (line : InLine) : (s.pinRead line).initSeq4 = s.initSeq4 := by
  simp [State.pinRead]

@[simp] theorem pinRead_initSeq8 (s : State) (line : InLine) : (s.pinRead line).initSeq8 = s.initSeq8 := by
  simp [State.pinRead]

@[simp] theorem pinRead_pins (s : State) (line : InLine) : (s.pinRead line).pins = s.pins := by
  simp [State.pinRead]

@[simp] theorem pinRead_draws (s : State) (line : InLine) : (s.pinRead line).draws = s.draws.tail := by
  simp [State.pinRead]

@[simp] theorem pinRead_agenda (s : State) (line : InLine) : (s.pinRead line).agenda = s.agenda := by
  simp [State.pinRead]

@[simp] theorem pinRead_trace (s : State) (line : InLine) : (s.pinRead line).trace = s.trace ++ [.r line s.nextDraw] := by
  simp [State.pinRead]

@[simp] theorem pinRead_replies (s : State) (line : InLine) : (s.pinRead line).replies = s.replies := by
  simp [State.pinRead]


/-! ### raiseFault -/

@[simp] theorem raiseFault_seq (s : State) (kind : FaultKind) :
    (s.raiseFault kind).seq = s.seq := by
  cases kind <;> simp [State.raiseFault]

@[simp] theorem raiseFault_faultIllegal (s : State) (kind : FaultKind) :
    (s.raiseFault kind).faultIllegal = (s.faultIllegal || kind == .illegal) := by
  cases kind <;> simp [State.raiseFault]

@[simp] theorem raiseFault_faultOverrun (s : State) (kind : FaultKind) :
    (s.raiseFault kind).faultOverrun = (s.faultOverrun || kind == .overrun) := by
  cases kind <;> simp [State.raiseFault]

@[simp] theorem raiseFault_key (s : State) (kind : FaultKind) :
    (s.raiseFault kind).key = s.key := by
  cases kind <;> simp [State.raiseFault]

@[simp] theorem raiseFault_mode (s : State) (kind : FaultKind) :
    (s.raiseFault kind).mode = s.mode := by
  cases kind <;> simp [State.raiseFault]

@[simp] theorem raiseFault_initSeq4 (s : State) (kind : FaultKind) :
    (s.raiseFault kind).initSeq4 = s.initSeq4 := by
  cases kind <;> simp [State.raiseFault]

@[simp] theorem raiseFault_initSeq8 (s : State) (kind : FaultKind) :
    (s.raiseFault kind).initSeq8 = s.initSeq8 := by
  cases kind <;> simp [State.raiseFault]

@[simp] theorem raiseFault_pins (s : State) (kind : FaultKind) :
    (s.raiseFault kind).pins = s.pins := by
  cases kind <;> simp [State.raiseFault]

@[simp] theorem raiseFault_draws (s : State) (kind : FaultKind) :
    (s.raiseFault kind).draws = s.draws := by
  cases kind <;> simp [State.raiseFault]

@[simp] theorem raiseFault_drawCount (s : State) (kind : FaultKind) :
    (s.raiseFault kind).drawCount = s.drawCount := by
  cases kind <;> simp [State.raiseFault]

@[simp] theorem raiseFault_agenda (s : State) (kind : FaultKind) :
    (s.raiseFault kind).agenda = s.agenda := by
  cases kind <;> simp [State.raiseFault]

@[simp] theorem raiseFault_trace (s : State) (kind : FaultKind) :
    (s.raiseFault kind).trace = s.trace := by
  cases kind <;> simp [State.raiseFault]

@[simp] theorem raiseFault_replies (s : State) (kind : FaultKind) :
    (s.raiseFault kind).replies = s.replies := by
  cases kind <;> simp [State.raiseFault]


/-! ### applyReset -/

@[simp] theorem applyReset_seq (s : State) :
    (s.applyReset).seq = .idle := rfl

@[simp] theorem applyReset_faultIllegal (s : State) :
    (s.applyReset).faultIllegal = false := rfl

@[simp] theorem applyReset_faultOverrun (s : State) :
    (s.applyReset).faultOverrun = false := rfl

@[simp] theorem applyReset_key (s : State) :
    (s.applyReset).key = 0x00#8 := rfl

@[simp] theorem applyReset_mode (s : State) :
    (s.applyReset).mode = s.mode := rfl

@[simp] theorem applyReset_initSeq4 (s : State) :
    (s.applyReset).initSeq4 = s.initSeq4 := rfl

@[simp] theorem applyReset_initSeq8 (s : State) :
    (s.applyReset).initSeq8 = s.initSeq8 := rfl

@[simp] theorem applyReset_pins (s : State) :
    (s.applyReset).pins = s.pins := rfl

@[simp] theorem applyReset_draws (s : State) :
    (s.applyReset).draws = s.draws := rfl

@[simp] theorem applyReset_drawCount (s : State) :
    (s.applyReset).drawCount = s.drawCount := rfl

@[simp] theorem applyReset_agenda (s : State) :
    (s.applyReset).agenda = s.agenda := rfl

@[simp] theorem applyReset_trace (s : State) :
    (s.applyReset).trace = s.trace := rfl

@[simp] theorem applyReset_replies (s : State) :
    (s.applyReset).replies = s.replies := rfl


/-! ### withFetchWord -/

@[simp] theorem withFetchWord_seq (s : State) (nbits w : Nat) :
    (s.withFetchWord nbits w).seq = .idle := rfl

@[simp] theorem withFetchWord_faultIllegal (s : State) (nbits w : Nat) :
    (s.withFetchWord nbits w).faultIllegal = s.faultIllegal := rfl

@[simp] theorem withFetchWord_faultOverrun (s : State) (nbits w : Nat) :
    (s.withFetchWord nbits w).faultOverrun = s.faultOverrun := rfl

@[simp] theorem withFetchWord_key (s : State) (nbits w : Nat) :
    (s.withFetchWord nbits w).key = s.key := rfl

@[simp] theorem withFetchWord_mode (s : State) (nbits w : Nat) :
    (s.withFetchWord nbits w).mode = s.mode := rfl

@[simp] theorem withFetchWord_initSeq4 (s : State) (nbits w : Nat) :
    (s.withFetchWord nbits w).initSeq4 = s.initSeq4 := rfl

@[simp] theorem withFetchWord_initSeq8 (s : State) (nbits w : Nat) :
    (s.withFetchWord nbits w).initSeq8 = s.initSeq8 := rfl

@[simp] theorem withFetchWord_pins (s : State) (nbits w : Nat) :
    (s.withFetchWord nbits w).pins = s.pins := rfl

@[simp] theorem withFetchWord_draws (s : State) (nbits w : Nat) :
    (s.withFetchWord nbits w).draws = s.draws := rfl

@[simp] theorem withFetchWord_drawCount (s : State) (nbits w : Nat) :
    (s.withFetchWord nbits w).drawCount = s.drawCount := rfl

@[simp] theorem withFetchWord_agenda (s : State) (nbits w : Nat) :
    (s.withFetchWord nbits w).agenda = .host (.write 0x00 4 (BitVec.ofNat 32 (w % 2 ^ nbits))) :: s.agenda := rfl

@[simp] theorem withFetchWord_trace (s : State) (nbits w : Nat) :
    (s.withFetchWord nbits w).trace = s.trace := rfl

@[simp] theorem withFetchWord_replies (s : State) (nbits w : Nat) :
    (s.withFetchWord nbits w).replies = s.replies := rfl


/-! ### resume -/

@[simp] theorem resume_faultIllegal (s : State) (p : Progress) : (s.resume p).faultIllegal = s.faultIllegal := by
  unfold State.resume; split <;> rfl

@[simp] theorem resume_faultOverrun (s : State) (p : Progress) : (s.resume p).faultOverrun = s.faultOverrun := by
  unfold State.resume; split <;> rfl

@[simp] theorem resume_mode (s : State) (p : Progress) : (s.resume p).mode = s.mode := by
  unfold State.resume; split <;> rfl

@[simp] theorem resume_initSeq4 (s : State) (p : Progress) : (s.resume p).initSeq4 = s.initSeq4 := by
  unfold State.resume; split <;> rfl

@[simp] theorem resume_initSeq8 (s : State) (p : Progress) : (s.resume p).initSeq8 = s.initSeq8 := by
  unfold State.resume; split <;> rfl

@[simp] theorem resume_pins (s : State) (p : Progress) : (s.resume p).pins = s.pins := by
  unfold State.resume; split <;> rfl

@[simp] theorem resume_draws (s : State) (p : Progress) : (s.resume p).draws = s.draws := by
  unfold State.resume; split <;> rfl

@[simp] theorem resume_drawCount (s : State) (p : Progress) : (s.resume p).drawCount = s.drawCount := by
  unfold State.resume; split <;> rfl

@[simp] theorem resume_agenda (s : State) (p : Progress) : (s.resume p).agenda = s.agenda := by
  unfold State.resume; split <;> rfl

@[simp] theorem resume_trace (s : State) (p : Progress) : (s.resume p).trace = s.trace := by
  unfold State.resume; split <;> rfl

@[simp] theorem resume_replies (s : State) (p : Progress) : (s.resume p).replies = s.replies := by
  unfold State.resume; split <;> rfl

theorem resume_of_ne_nil (s : State) (p : Progress) (h : p.todo ≠ []) : s.resume p = { s with seq := .running p } := by
  unfold State.resume
  split
  · contradiction
  · rfl

theorem resume_of_nil (s : State) (p : Progress) (h : p.todo = []) :
    s.resume p = { s with seq := .idle, key := p.answer.getD s.key } := by
  simp [State.resume, h]


/-! ### busy and todo -/

theorem busy_of_idle {s : State} (h : s.seq = .idle) : s.busy = false := by simp [State.busy, h]

theorem busy_of_running {s : State} {p : Progress} (h : s.seq = .running p) : s.busy = true := by simp [State.busy, h]

theorem busy_iff (s : State) : s.busy = true ↔ ∃ p, s.seq = .running p := by
  unfold State.busy; split <;> simp_all

theorem todo_of_idle {s : State} (h : s.seq = .idle) : s.todo = [] := by simp [State.todo, h]

theorem todo_of_running {s : State} {p : Progress} (h : s.seq = .running p) : s.todo = p.todo := by
  simp [State.todo, h]

end Sys2Proof.Machine
end

