-- ==== Sys2Proof/Laws/Pins.lean ====
section
/-! SUPPORT. The pin latch file: what one write or direction change does to each line, and the pins after a trace. -/

namespace Sys2Proof.Machine

@[simp] theorem setLevel_level_self (p : Pins) (line : OutLine) (l : Level) : (p.setLevel line l).level line = l := by
  cases line <;> simp [Pins.setLevel, Pins.level]

/-- A write leaves every other latch alone (R68). -/
theorem setLevel_level_of_ne (p : Pins) (line line' : OutLine) (l : Level) (h : line' ≠ line) :
    (p.setLevel line l).level line' = p.level line' := by
  cases line <;> cases line' <;> simp_all [Pins.setLevel, Pins.level, Fin.ext_iff, Vector.getElem_set]
  · split <;> simp_all
  · exact fun e => absurd e.symm h

/-- A direction change keeps every latch (R31). -/
@[simp] theorem setDir_level (p : Pins) (i : Fin 8) (d : Dir) (line : OutLine) :
    (p.setDir i d).level line = p.level line := by
  cases line <;> simp [Pins.setDir, Pins.level, Vector.getElem_set]
  split <;> simp_all

theorem setDir_dir (p : Pins) (i j : Fin 8) (d : Dir) :
    (p.setDir i d).data[j].dir = if j = i then d else p.data[j].dir := by
  by_cases h : j = i
  · subst h; simp [Pins.setDir]
  · have : i.val ≠ j.val := fun e => h (Fin.ext e.symm)
    simp [Pins.setDir, h, this]

@[simp] theorem setLevel_dir (p : Pins) (line : OutLine) (l : Level) (j : Fin 8) :
    (p.setLevel line l).data[j].dir = p.data[j].dir := by
  cases line <;> simp [Pins.setLevel, Vector.getElem_set]
  split <;> simp_all

@[simp] theorem after_nil (p : Pins) : p.after [] = p := rfl

@[simp] theorem after_cons (p : Pins) (e : Event) (tr : List Event) :
    p.after (e :: tr) = (p.afterEvent e).after tr := rfl

theorem after_append (p : Pins) (a b : List Event) : p.after (a ++ b) = (p.after a).after b := by
  simp [Pins.after]

@[simp] theorem afterEvent_w (p : Pins) (line : OutLine) (l : Level) : p.afterEvent (.w line l) = p.setLevel line l := rfl
@[simp] theorem afterEvent_dir (p : Pins) (i : Fin 8) (d : Dir) : p.afterEvent (.dir i d) = p.setDir i d := rfl
@[simp] theorem afterEvent_r (p : Pins) (line : InLine) (l : Level) : p.afterEvent (.r line l) = p := rfl
@[simp] theorem afterEvent_dly (p : Pins) (t : Delay) : p.afterEvent (.dly t) = p := rfl

/-- The bus cycles of two traces in a row. -/
theorem busCycles_append (mode : Mode) (p : Pins) (a b : List Event) :
    busCycles mode p (a ++ b) = busCycles mode p a ++ busCycles mode (p.after a) b := by
  induction a generalizing p with
  | nil => rfl
  | cons e a ih => simp [busCycles, ih]

/-- A frame from output lines is its write cycles, and leaves the lines outputs and the chip selects as they were (R64, R74). -/
theorem busCycles_frame (mode : Mode) (p : Pins) (h : ∀ i ∈ dataLines mode, p.data[i].dir = .output) (rs : Level)
    (b : Byte) :
    busCycles mode p (frameTrace mode rs b) = writeCycles mode p.cs1 p.cs2 rs b ∧
      (∀ i ∈ dataLines mode, (p.after (frameTrace mode rs b)).data[i].dir = .output) ∧
      (p.after (frameTrace mode rs b)).cs1 = p.cs1 ∧ (p.after (frameTrace mode rs b)).cs2 = p.cs2 := by
  cases mode
  · simp [dataLines] at h
    obtain ⟨h7, h6, h5, h4⟩ := h
    simp [frameTrace, transferTrace, pulseTrace, busCycles, writeCycles, Pins.busCycle, Pins.setLevel, dataLines,
      Vector.getElem_set, h7, h6, h5, h4]
  · simp [dataLines] at h
    obtain ⟨h7, h6, h5, h4, h3, h2, h1, h0⟩ := h
    simp [frameTrace, transferTrace, pulseTrace, busCycles, writeCycles, Pins.busCycle, Pins.setLevel, dataLines,
      Vector.getElem_set, h7, h6, h5, h4, h3, h2, h1, h0]

/-- The delays of two traces in a row add up. -/
theorem minDuration_append (a b : List Event) : minDuration (a ++ b) = minDuration a + minDuration b := by
  induction a with
  | nil => simp [minDuration]
  | cons e a ih => cases e <;> simp [minDuration, ih]; omega

end Sys2Proof.Machine
end

