-- ==== Sys2Proof/Laws/Ops.lean ====
section
/-! SUPPORT. What each shared operation can do: accepting a word, performing one event, and a whole step. -/

namespace Sys2Proof.Machine

/-- An idle engine takes the operation: only the sequencer changes (R66). -/
theorem exec_of_idle (i : Instr) (s : State) (h : s.seq = .idle) :
    exec i s = .next { s with seq := .running ⟨encode i, scriptOf s.mode s.initSeq i, none, answerOf i⟩ } := by
  cases i <;>
    simp [exec, execInit, execSendCmd, execPrintChar, execClear, execSetCursor, execCmdToChip, execWaitBusy, execScanKey,
      State.accept, h, scriptOf, answerOf, noKey]

/-- A busy engine discards it (R98). -/
theorem exec_of_running (i : Instr) (s : State) (p : Progress) (h : s.seq = .running p) :
    exec i s = .next (s.raiseFault .overrun) := by
  cases i <;>
    simp [exec, execInit, execSendCmd, execPrintChar, execClear, execSetCursor, execCmdToChip, execWaitBusy, execScanKey,
      State.accept, h]

theorem perform_of_not_reads (a : Action) (p : Progress) (s : State) (l : Level) (h : a.reads = false) :
    s.perform a p =
      { s with pins := s.pins.afterEvent (a.event l), trace := s.trace ++ [a.event l] }.resume p := by
  cases a <;> simp_all [Action.reads, State.perform, Action.event, State.pinDir, State.pinWrite, State.delay, State.emit]

theorem perform_of_reads (a : Action) (p : Progress) (s : State) (h : a.reads = true) :
    s.perform a p = (s.dropDraw.emit (a.event s.nextDraw)).resume (p.afterRead a s.nextDraw) := by
  cases a <;> simp_all [Action.reads, State.perform, Action.event, State.pinRead]

/-- One action performs exactly one event (R48). -/
theorem perform_trace (a : Action) (p : Progress) (s : State) :
    (s.perform a p).trace = s.trace ++ [a.event s.nextDraw] := by
  cases h : a.reads
  · simp [perform_of_not_reads a p s s.nextDraw h]
  · simp [perform_of_reads a p s h]

/-- The pins change as that event says (R68, R69). -/
theorem perform_pins (a : Action) (p : Progress) (s : State) :
    (s.perform a p).pins = s.pins.afterEvent (a.event s.nextDraw) := by
  cases h : a.reads
  · simp [perform_of_not_reads a p s s.nextDraw h]
  · rw [perform_of_reads a p s h]
    cases a <;> simp_all [Action.reads, Action.event]

/-- Performing an action leaves the fault bits, MODE, the agenda and the replies alone. -/
theorem perform_frame (a : Action) (p : Progress) (s : State) :
    (s.perform a p).faultIllegal = s.faultIllegal ∧ (s.perform a p).faultOverrun = s.faultOverrun ∧
      (s.perform a p).mode = s.mode ∧ (s.perform a p).agenda = s.agenda ∧ (s.perform a p).replies = s.replies := by
  cases h : a.reads
  · simp [perform_of_not_reads a p s s.nextDraw h]
  · simp [perform_of_reads a p s h]

/-- Performing an action leaves the INIT parameters alone. -/
theorem perform_initSeqs (a : Action) (p : Progress) (s : State) :
    (s.perform a p).initSeq4 = s.initSeq4 ∧ (s.perform a p).initSeq8 = s.initSeq8 := by
  cases h : a.reads
  · simp [perform_of_not_reads a p s s.nextDraw h]
  · simp [perform_of_reads a p s h]

/-- What an engine turn can do. -/
theorem engineTurn_cases (s : State) :
    (s.seq = .idle ∧ s.engineTurn = s) ∨
    (∃ p, s.seq = .running p ∧ p.todo = [] ∧ s.engineTurn = s.resume p) ∨
    (∃ p a rest, s.seq = .running p ∧ p.todo = a :: rest ∧ s.engineTurn = s.perform a { p with todo := rest }) := by
  unfold State.engineTurn
  split
  · exact .inl ⟨‹_›, rfl⟩
  · next p h =>
    split
    · exact .inr (.inl ⟨p, h, ‹_›, rfl⟩)
    · next a rest ht => exact .inr (.inr ⟨p, a, rest, h, ht, rfl⟩)

/-- An engine turn leaves the fault bits, MODE, the agenda and the replies alone. -/
theorem engineTurn_frame (s : State) :
    s.engineTurn.faultIllegal = s.faultIllegal ∧ s.engineTurn.faultOverrun = s.faultOverrun ∧
      s.engineTurn.mode = s.mode ∧ s.engineTurn.agenda = s.agenda ∧ s.engineTurn.replies = s.replies := by
  obtain ⟨_, h⟩ | ⟨p, _, _, h⟩ | ⟨p, a, rest, _, _, h⟩ := engineTurn_cases s <;> rw [h]
  · simp
  · simp
  · exact perform_frame a _ s

/-- An engine turn leaves the INIT parameters alone. -/
theorem engineTurn_initSeqs (s : State) :
    s.engineTurn.initSeq4 = s.initSeq4 ∧ s.engineTurn.initSeq8 = s.initSeq8 := by
  obtain ⟨_, h⟩ | ⟨p, _, _, h⟩ | ⟨p, a, rest, _, _, h⟩ := engineTurn_cases s <;> rw [h]
  · simp
  · simp
  · exact perform_initSeqs a _ s

/-- What a step that gives a next state can have done: an engine turn, an admitted register read, a command word refused
as OVERRUN or ILLEGAL or taken, or a reset. -/
theorem step_cases {s t : State} (h : step s = .next t) :
    (s.agenda = [] ∧ t = s.engineTurn) ∨
    (∃ rest, s.agenda = .engine :: rest ∧ t = { s with agenda := rest }.engineTurn) ∨
    (∃ rest off v, s.agenda = .host (.read off 4) :: rest ∧ s.readRegister off = some v ∧
      t = { s with agenda := rest, replies := s.replies ++ [⟨off, v⟩] }) ∨
    (∃ rest w, s.agenda = .host (.write 0x00 4 w) :: rest ∧ s.busy = true ∧
      t = { s with agenda := rest, faultOverrun := true }) ∨
    (∃ rest w, s.agenda = .host (.write 0x00 4 w) :: rest ∧ s.seq = .idle ∧ decode w = none ∧
      t = { s with agenda := rest, faultIllegal := true }) ∨
    (∃ rest w i, s.agenda = .host (.write 0x00 4 w) :: rest ∧ s.seq = .idle ∧ decode w = some i ∧
      t = { s with agenda := rest, seq := .running ⟨encode i, scriptOf s.mode s.initSeq i, none, answerOf i⟩ }) ∨
    (∃ rest, s.agenda = .reset :: rest ∧ t = { s with agenda := rest }.applyReset) := by
  unfold step takeTurn at h
  split at h
  · next ha => exact .inl ⟨ha, by simpa using h.symm⟩
  · next rest ha => exact .inr (.inl ⟨rest, ha, by simpa using h.symm⟩)
  · next a rest ha =>
    cases a with
    | read off width =>
      simp only [hostAccess] at h
      split at h
      · next hw =>
        subst hw
        split at h
        · next v hv => exact .inr (.inr (.inl ⟨rest, off, v, ha, hv, by simpa using h.symm⟩))
        · cases h
      · cases h
    | write off width w =>
      simp only [hostAccess] at h
      split at h
      · next hw =>
        obtain ⟨rfl, rfl⟩ := hw
        unfold handCommand at h
        split at h
        · next hb => exact .inr (.inr (.inr (.inl ⟨rest, w, ha, hb, by simpa [State.raiseFault] using h.symm⟩)))
        · next hb =>
          have hi : s.seq = .idle := by
            cases hs : s.seq with
            | idle => rfl
            | running p => simp [State.busy, hs] at hb
          split at h
          · next hd =>
            exact .inr (.inr (.inr (.inr (.inl ⟨rest, w, ha, hi, hd, by simpa [State.raiseFault] using h.symm⟩))))
          · next i hd =>
            rw [exec_of_idle i { s with agenda := rest } hi] at h
            exact .inr (.inr (.inr (.inr (.inr (.inl ⟨rest, w, i, ha, hi, hd, by simpa [State.initSeq] using h.symm⟩)))))
      · cases h
  · next rest ha => exact .inr (.inr (.inr (.inr (.inr (.inr ⟨rest, ha, by simpa using h.symm⟩)))))

/-- With nothing on the agenda every step is the engine's. -/
theorem step_of_empty_agenda {s : State} (h : s.agenda = []) : step s = .next s.engineTurn := by
  simp [step, takeTurn, h]

end Sys2Proof.Machine
end

