-- ==== Sys2Proof/Laws/PerInstr.lean ====
section
/-! SUPPORT. Statements made for every operation, one lemma per constructor: the fixed fields of its word. -/

namespace Sys2Proof.Laws

/-- The OP field of a word is the operation's code and its RES field is zero (R54, R55). -/
def OpField.Statement (i : Instr) : Prop :=
  (encode i).extractLsb' 28 4 = i.op ∧ (encode i).extractLsb' 18 10 = 0#10

/-- The fields of a word put together from its fields. -/
theorem OpField.of_fields (op : BitVec 4) (chip : BitVec 2) (column arg : Byte) :
    (assembleFields op chip column arg).extractLsb' 28 4 = op ∧
      (assembleFields op chip column arg).extractLsb' 18 10 = 0#10 := by
  constructor <;> apply BitVec.eq_of_getLsbD_eq <;> intro i hi <;>
    simp only [assembleFields, BitVec.getLsbD_append, BitVec.getLsbD_extractLsb'] <;> interval_cases i <;> simp

theorem OpField.init : OpField.Statement .init := OpField.of_fields ..
theorem OpField.sendCmd (code : Byte) : OpField.Statement (.sendCmd code) := OpField.of_fields ..
theorem OpField.printChar (ch : Byte) : OpField.Statement (.printChar ch) := OpField.of_fields ..
theorem OpField.clear : OpField.Statement .clear := OpField.of_fields ..
theorem OpField.setCursor (page column : Byte) (chip : BitVec 2) : OpField.Statement (.setCursor page column chip) :=
  OpField.of_fields ..
theorem OpField.cmdToChip (code : Byte) (chip : BitVec 2) : OpField.Statement (.cmdToChip code chip) :=
  OpField.of_fields ..
theorem OpField.waitBusy : OpField.Statement .waitBusy := OpField.of_fields ..
theorem OpField.scanKey : OpField.Statement .scanKey := OpField.of_fields ..

end Sys2Proof.Laws
end

