-- ==== Sys2Proof/Laws/Run.lean ====
section
/-! SUPPORT. Running an operation: how runs compose, what a stretch of writes and delays does, and what a busy poll does. -/

namespace Sys2Proof.Machine

@[simp] theorem runs_zero (s : State) : runs 0 s = .next s := rfl

theorem runs_succ_of_step {s u : State} (n : Nat) (h : step s = .next u) : runs (n + 1) s = runs n u := by
  have hc : Sys2Proof.core.step s = .next u := h
  simp only [runs, Host.Core.run, hc]
  rfl

theorem RunsTo.refl (s : State) : RunsTo s [] s := ⟨by simp, rfl⟩

/-- One busy step in front of a run. -/
theorem RunsTo.cons {s u t : State} {e : Event} {tr : List Event} (hb : s.busy = true) (hs : step s = .next u)
    (ht : u.trace = s.trace ++ [e]) (hp : u.pins = s.pins.afterEvent e) (h : RunsTo u tr t) : RunsTo s (e :: tr) t := by
  refine ⟨fun k hk => ?_, by rw [List.length_cons, runs_succ_of_step _ hs]; exact h.2⟩
  cases k with
  | zero => exact ⟨s, rfl, hb, by simp, by simp⟩
  | succ k =>
    obtain ⟨v, hv, hvb, hvt, hvp⟩ := h.1 k (by simpa using hk)
    exact ⟨v, by rw [runs_succ_of_step _ hs]; exact hv, hvb, by simp [hvt, ht], by simp [hvp, hp]⟩

theorem runs_add {s u : State} (m n : Nat) (h : runs m s = .next u) : runs (m + n) s = runs n u := by
  induction m generalizing s with
  | zero => cases h; simp
  | succ m ih =>
    cases hs : step s with
    | next v => rw [runs_succ_of_step m hs] at h; rw [Nat.succ_add, runs_succ_of_step _ hs]; exact ih h
    | fault r => cases r
    | refused r =>
      have : runs (m + 1) s = .refused r := by
        have hc : Sys2Proof.core.step s = .refused r := hs
        simp only [runs, Host.Core.run, hc]
        rfl
      rw [this] at h; cases h

/-- Two runs in a row. -/
theorem RunsTo.append {s u t : State} {a b : List Event} (h : RunsTo s a u) (hu : u.trace = s.trace ++ a)
    (hp : u.pins = s.pins.after a) (h' : RunsTo u b t) : RunsTo s (a ++ b) t := by
  refine ⟨fun k hk => ?_, by rw [List.length_append, runs_add _ _ h.2]; exact h'.2⟩
  by_cases hka : k < a.length
  · obtain ⟨v, hv, hvb, hvt, hvp⟩ := h.1 k hka
    rw [List.take_append_of_le_length (by omega)]
    exact ⟨v, hv, hvb, hvt, hvp⟩
  · obtain ⟨j, rfl⟩ : ∃ j, k = a.length + j := ⟨k - a.length, by omega⟩
    obtain ⟨v, hv, hvb, hvt, hvp⟩ := h'.1 j (by rw [List.length_append] at hk; omega)
    exact ⟨v, by rw [runs_add _ _ h.2]; exact hv, hvb, by simp [hvt, hu, List.take_append],
      by simp [hvp, hp, List.take_append, after_append, List.take_of_length_le]⟩

/-- A run whose trace is named gives one whose trace has a property. -/
theorem RunsWith.of_run {i : Instr} {s t : State} {tr : List Event} {P : List Event → Prop}
    (h : ∃ p, exec i s = .next { s with seq := .running p } ∧ RunsTo { s with seq := .running p } tr t)
    (hi : t.seq = .idle) (ht : t.trace = s.trace ++ tr) (hp : t.pins = s.pins.after tr) (hP : P tr) : RunsWith i s P := by
  obtain ⟨p, he, hr⟩ := h
  exact ⟨p, tr, t, he, hr, hi, ht, hp, hP⟩

/-- The state after a trace, with the answers left over. -/
def State.moved (s : State) (tr : List Event) (ds : List Level) : State :=
  { s with pins := s.pins.after tr, trace := s.trace ++ tr, draws := ds }

theorem moved_moved (s : State) (a b : List Event) (ds ds' : List Level) :
    (s.moved a ds).moved b ds' = s.moved (a ++ b) ds' := by
  simp [State.moved, after_append]

@[simp] theorem moved_agenda (s : State) (tr : List Event) (ds : List Level) : (s.moved tr ds).agenda = s.agenda := rfl
@[simp] theorem moved_draws (s : State) (tr : List Event) (ds : List Level) : (s.moved tr ds).draws = ds := rfl
@[simp] theorem moved_trace (s : State) (tr : List Event) (ds : List Level) : (s.moved tr ds).trace = s.trace ++ tr := rfl
@[simp] theorem moved_pins (s : State) (tr : List Event) (ds : List Level) : (s.moved tr ds).pins = s.pins.after tr := rfl
@[simp] theorem moved_key (s : State) (tr : List Event) (ds : List Level) : (s.moved tr ds).key = s.key := rfl
@[simp] theorem moved_mode (s : State) (tr : List Event) (ds : List Level) : (s.moved tr ds).mode = s.mode := rfl

/-- From position `p` the engine performs `tr`, leaves the answers `ds`, and stands at `p'` (or has ended there). -/
def Goes (s : State) (p : Progress) (tr : List Event) (ds : List Level) (p' : Progress) : Prop :=
  RunsTo { s with seq := .running p } tr ((s.moved tr ds).resume p')

theorem Goes.append {s : State} {p p' p'' : Progress} {a b : List Event} {ds ds' : List Level} (h : Goes s p a ds p')
    (hp : p'.todo ≠ []) (h' : Goes (s.moved a ds) p' b ds' p'') : Goes s p (a ++ b) ds' p'' := by
  unfold Goes at *
  rw [resume_of_ne_nil _ _ hp] at h
  rw [moved_moved] at h'
  exact h.append (by simp) (by simp) h'

/-- A stretch of writes, direction changes and delays performs their events in order (R48). -/
theorem goes_plain (s : State) (ha : s.agenda = []) (w : Word) (as rest : List Action) (smp : Option Level)
    (ans : Option Byte) (hp : ∀ a ∈ as, a.reads = false) (hne : as ≠ []) :
    Goes s ⟨w, as ++ rest, smp, ans⟩ (as.map (Action.event · .low)) s.draws ⟨w, rest, smp, ans⟩ := by
  induction as generalizing s with
  | nil => contradiction
  | cons a as ih =>
    have hr := hp a (by simp)
    have hstep : step { s with seq := .running ⟨w, a :: (as ++ rest), smp, ans⟩ } =
        .next ((s.moved [a.event .low] s.draws).resume ⟨w, as ++ rest, smp, ans⟩) := by
      rw [step_of_empty_agenda (by simpa using ha)]
      show Host.Outcome.next (State.perform _ _ _) = _
      rw [perform_of_not_reads _ _ _ .low hr]
      simp [State.moved, State.resume]
    by_cases hn : as = []
    · subst hn
      exact RunsTo.cons rfl hstep (by simp) (by simp) (RunsTo.refl _)
    · refine RunsTo.cons rfl hstep (by simp) (by simp) ?_
      have := ih (s.moved [a.event .low] s.draws) (by simpa using ha) (fun b hb => hp b (by simp [hb])) hn
      unfold Goes at this
      rw [resume_of_ne_nil _ _ (by simp [hn])]
      rw [moved_moved] at this
      exact this

/-- One read: its event, its answer used up, and the position `afterRead` gives. -/
theorem goes_read (s : State) (ha : s.agenda = []) (w : Word) (a : Action) (rest : List Action) (smp : Option Level)
    (ans : Option Byte) (l : Level) (ds : List Level) (hr : a.reads = true) (hd : s.draws = l :: ds) :
    Goes s ⟨w, a :: rest, smp, ans⟩ [a.event l] ds (Progress.afterRead a l ⟨w, rest, smp, ans⟩) := by
  refine RunsTo.cons rfl ?_ ?_ ?_ (RunsTo.refl _)
  · rw [step_of_empty_agenda (by simpa using ha)]
    show Host.Outcome.next (State.perform _ _ _) = _
    rw [perform_of_reads _ _ _ hr]
    have h1 : State.nextDraw { s with seq := .running ⟨w, a :: rest, smp, ans⟩ } = l := nextDraw_of_cons _ l ds hd
    rw [h1, dropDraw_of_cons { s with seq := .running ⟨w, a :: rest, smp, ans⟩ } l ds hd]
    have h2 : s.pins.after [a.event l] = s.pins := by cases a <;> simp_all [Action.reads, Action.event]
    simp only [State.moved, State.emit, h2]
    simp [State.resume]
  · simp
  · simp

/-- A busy poll's iterations: they go on while the sample is 1 and end when it is 0 (R75). -/
theorem goes_poll (s : State) (ha : s.agenda = []) (w : Word) (rest : List Action) (smp : Option Level)
    (ans : Option Byte) (n : Nat) (ds : List Level) (hd : s.draws = pollDraws n ++ ds) :
    Goes s ⟨w, enablePulse ++ .pollRead :: rest, smp, ans⟩ (sampleTrace (pollDraws n)) ds ⟨w, rest, some .low, ans⟩ := by
  have pulse := fun (s : State) (ha : s.agenda = []) (smp : Option Level) =>
    goes_plain s ha w enablePulse (.pollRead :: rest) smp ans (by simp [enablePulse, Action.reads]) (by simp [enablePulse])
  induction n generalizing s smp with
  | zero =>
    have h1 := (pulse s ha smp).append (by simp)
      (goes_read (s.moved _ _) (by simpa using ha) w .pollRead rest smp ans .low ds rfl (by simpa [pollDraws] using hd))
    simpa [sampleTrace, pollDraws, pulseTrace, enablePulse, Action.event, Progress.afterRead] using h1
  | succ n ih =>
    have h1 := (pulse s ha smp).append (by simp)
      (goes_read (s.moved _ _) (by simpa using ha) w .pollRead rest smp ans .high (pollDraws n ++ ds) rfl
        (by simpa [pollDraws, List.replicate_succ] using hd))
    have h2 := h1.append (by simp [Progress.afterRead])
      (ih (s.moved _ (pollDraws n ++ ds)) (by simpa using ha) (some .high) (by simp))
    simpa [sampleTrace, pollDraws, List.replicate_succ, pulseTrace, enablePulse, Action.event] using h2

end Sys2Proof.Machine
end

