-- ==== Sys2Proof/Laws/Scripts.lean ====
section
/-! SUPPORT. The event sequences of the operations: what they hold and do not hold, and the traces their stretches give. -/

namespace Sys2Proof.Machine

/-! ### What a sequence of LCD actions may hold -/

/-- The shape every rest of an LCD operation's sequence has: each sample of D7 stands at the end of a pulse and inside the
input phase of its poll (R75), direction changes alternate (R29), and there is no keypad action. -/
structure ScriptFit (m : Mode) (l : List Action) : Prop where
  poll : ∀ rest, (Action.pollRead :: rest) <:+ l →
    (enablePulse ++ .pollRead :: rest) <:+ l ∧ ∀ j ∈ dataLines m, insidePoll j rest = true
  dir : ∀ j d rest, (Action.setDir j d :: rest) <:+ l → j ∈ dataLines m ∧ insidePoll j rest = (d == .input)
  out : ∀ j, insidePoll j l = false
  noscan : ∀ r c, Action.scanRead r c ∉ l
  noconf : ∀ r c, Action.confirmRead r c ∉ l
  norel : ∀ r c, Action.releaseRead r c ∉ l
  norow : ∀ q v, Action.write (.row q) v ∉ l
  data : ∀ i v, Action.write (.data i) v ∈ l → i ∈ dataLines m

theorem ScriptFit.nil (m : Mode) : ScriptFit m [] := by constructor <;> simp [insidePoll]

/-- A write to a line other than a row, or a delay, in front of a sequence. -/
theorem ScriptFit.cons_plain {m : Mode} {l : List Action} (h : ScriptFit m l) (a : Action) (hr : a.reads = false)
    (hd : ∀ i d, a ≠ .setDir i d) (hrow : ∀ q v, a ≠ .write (.row q) v)
    (hdat : ∀ i v, a = .write (.data i) v → i ∈ dataLines m) : ScriptFit m (a :: l) := by
  constructor
  · intro rest hs
    rw [List.suffix_cons_iff] at hs
    obtain hs | hs := hs
    · cases hs; simp [Action.reads] at hr
    · exact ⟨(h.poll rest hs).1.trans (List.suffix_cons ..), (h.poll rest hs).2⟩
  · intro j d rest hs
    rw [List.suffix_cons_iff] at hs
    obtain hs | hs := hs
    · cases hs; exact absurd rfl (hd j d)
    · exact h.dir j d rest hs
  · intro j
    cases a <;> simp_all [insidePoll, Action.reads, h.out]
  · intro r c hm; cases hm; simp [Action.reads] at hr; exact h.noscan r c ‹_›
  · intro r c hm; cases hm; simp [Action.reads] at hr; exact h.noconf r c ‹_›
  · intro r c hm; cases hm; simp [Action.reads] at hr; exact h.norel r c ‹_›
  · intro r c hm; cases hm; exact absurd rfl (hrow r c); exact h.norow r c ‹_›
  · intro r c hm; cases hm; exact hdat _ _ rfl; exact h.data r c ‹_›

theorem ScriptFit.frame {m : Mode} {l : List Action} (h : ScriptFit m l) (rs : Level) (b : Byte) :
    ScriptFit m (frame m rs b ++ l) := by
  cases m <;>
    simp only [Machine.frame, xfer, putByte, putNibble, enablePulse, dataLines, List.map, List.cons_append,
      List.nil_append, nibbleLine] <;>
    (repeat' (first
      | exact h
      | refine ScriptFit.cons_plain ?_ _ rfl (by simp) (by simp) (by simp [dataLines]; try decide)))

theorem ScriptFit.busyPoll {m : Mode} {l : List Action} (h : ScriptFit m l) : ScriptFit m (busyPoll m ++ l) := by
  constructor
  · intro rest hs
    cases m <;> simp [Machine.busyPoll, enablePulse, dataLines, List.suffix_cons_iff] at hs
    all_goals
      obtain rfl | hs := hs
      · exact ⟨⟨(dataLines _).map (fun i => Action.setDir i .input) ++ [.write .rs .low, .write .rw .high],
          by simp only [Machine.busyPoll, List.append_assoc]; rfl⟩, by simp [dataLines, insidePoll]⟩
      · exact ⟨(h.poll rest hs).1.trans (List.suffix_append ..), (h.poll rest hs).2⟩
  · intro j d rest hs
    have ho := h.out
    cases m <;> simp [Machine.busyPoll, enablePulse, dataLines, List.suffix_cons_iff] at hs
    · rcases hs with hs | hs | hs | hs | hs | hs | hs | hs | hs
      all_goals first
        | exact h.dir j d rest hs
        | (obtain ⟨⟨rfl, rfl⟩, rfl⟩ := hs; simp [dataLines, insidePoll, ho])
    · rcases hs with hs | hs | hs | hs | hs | hs | hs | hs | hs | hs | hs | hs | hs | hs | hs | hs | hs
      all_goals first
        | exact h.dir j d rest hs
        | (obtain ⟨⟨rfl, rfl⟩, rfl⟩ := hs; simp [dataLines, insidePoll, ho])
  · intro j
    cases m <;> simp [Machine.busyPoll, enablePulse, dataLines, insidePoll, h.out] <;> tauto
  all_goals (intro a b hm; cases m <;> simp [Machine.busyPoll, enablePulse, dataLines] at hm)
  all_goals first
    | exact h.noscan _ _ hm
    | exact h.noconf _ _ hm
    | exact h.norel _ _ hm
    | exact h.norow _ _ hm
    | exact h.data _ _ hm

theorem ScriptFit.sendCmd {m : Mode} {l : List Action} (h : ScriptFit m l) (code : Byte) :
    ScriptFit m (sendCmdScript m code ++ l) := by
  cases m
  · simp only [sendCmdScript, List.append_assoc]; exact h.busyPoll.frame _ _
  · exact h.frame _ _

theorem ScriptFit.flatMap_sendCmd (m : Mode) (codes : List Byte) : ScriptFit m (codes.flatMap (sendCmdScript m)) := by
  induction codes with
  | nil => exact ScriptFit.nil m
  | cons c cs ih => exact ih.sendCmd c

theorem ScriptFit.cmdToChip {m : Mode} {l : List Action} (h : ScriptFit m l) (code : Byte) (chip : BitVec 2) :
    ScriptFit m (cmdToChipScript m code chip ++ l) := by
  simp only [cmdToChipScript, List.append_assoc]
  have h1 : ScriptFit m (csRelease ++ l) := by
    unfold csRelease
    repeat' (first | exact h | refine ScriptFit.cons_plain ?_ _ rfl (by simp) (by simp) (by simp))
  have h2 := h1.frame .low code
  unfold csSelect
  repeat' split
  all_goals repeat' (first | exact h2 | refine ScriptFit.cons_plain ?_ _ rfl (by simp) (by simp) (by simp))

/-- Every LCD operation's sequence has that shape. -/
theorem scriptOf_fit (m : Mode) (codes : List Byte) (i : Instr) (hi : i ≠ .scanKey) :
    ScriptFit m (scriptOf m codes i) := by
  cases i with
  | init => exact (ScriptFit.flatMap_sendCmd m _).cons_plain _ rfl (by simp) (by simp) (by simp)
  | sendCmd code => simpa [scriptOf] using (ScriptFit.nil m).sendCmd code
  | printChar ch => simpa [scriptOf, printCharScript] using (ScriptFit.nil m).busyPoll.frame .high ch
  | clear => simpa [scriptOf, clearScript] using (ScriptFit.nil m).busyPoll.frame .low clearByte
  | setCursor page column chip =>
    simpa [scriptOf, setCursorScript] using
      ((ScriptFit.nil m).cmdToChip (setColumnByte column) chip).cmdToChip (setPageByte page) chip
  | cmdToChip code chip => simpa [scriptOf] using (ScriptFit.nil m).cmdToChip code chip
  | waitBusy => simpa [scriptOf, waitBusyScript] using (ScriptFit.nil m).busyPoll
  | scanKey => contradiction

/-- The scan's sequence holds row writes, delays and first column reads only (R93). -/
theorem mem_scanKeyScript (a : Action) (h : a ∈ scanKeyScript) :
    (∃ q v, a = .write (.row q) v) ∨ (∃ t, a = .delay t) ∨ ∃ r c, a = .scanRead r c := by
  have all : ∀ a ∈ scanKeyScript,
      (match a with
        | .write (.row _) _ => true
        | .delay _ => true
        | .scanRead _ _ => true
        | _ => false) = true := by decide
  have := all a h
  split at this <;> simp_all

/-- No operation has an empty sequence. -/
theorem scriptOf_ne_nil (m : Mode) (codes : List Byte) (i : Instr) : scriptOf m codes i ≠ [] := by
  cases i <;> cases m <;>
    simp [scriptOf, initScript, sendCmdScript, printCharScript, clearScript, waitBusyScript, setCursorScript,
      cmdToChipScript, scanKeyScript, frame, busyPoll, dataLines, scanRow, rowDrive]

/-! ### What a rest of a sequence does to the chip selects -/

theorem not_both_of_neverBoth {a b : Level} {l : List Action} (h : neverBoth a b l) : ¬(a = .high ∧ b = .high) := by
  induction l with
  | nil => exact h
  | cons x xs ih =>
    cases x with
    | write line v => cases line <;> first | exact h.1 | exact ih h
    | _ => exact ih h

theorem neverBoth_frame (m : Mode) (rs : Level) (b : Byte) (l : List Action) (x y : Level) :
    neverBoth x y (frame m rs b ++ l) ↔ neverBoth x y l := by
  cases m <;> simp [frame, xfer, putByte, putNibble, dataLines, enablePulse, neverBoth]

theorem neverBoth_busyPoll (m : Mode) (l : List Action) (x y : Level) :
    neverBoth x y (busyPoll m ++ l) ↔ neverBoth x y l := by
  cases m <;> simp [busyPoll, dataLines, enablePulse, neverBoth]

/-! ### The traces of stretches -/

theorem frame_events (m : Mode) (rs : Level) (b : Byte) :
    (frame m rs b).map (Action.event · .low) = frameTrace m rs b := by
  cases m
  · simp [frame, xfer, putNibble, frameTrace, transferTrace, pulseTrace, enablePulse, Action.event, nibbleLine,
      nibbleLevel, highNibble, lowNibble]
  · simp [frame, xfer, putByte, frameTrace, transferTrace, pulseTrace, enablePulse, Action.event, dataLines, byteLevel]

theorem frame_reads_nothing (m : Mode) (rs : Level) (b : Byte) : ∀ a ∈ frame m rs b, a.reads = false := by
  cases m <;> simp [frame, xfer, putByte, putNibble, enablePulse, dataLines, Action.reads]

/-- `goes_plain` with the trace named. -/
theorem goes_stretch (s : State) (ha : s.agenda = []) (w : Word) (as rest : List Action) (smp : Option Level)
    (ans : Option Byte) (hp : ∀ a ∈ as, a.reads = false) (hne : as ≠ []) (tr : List Event)
    (htr : as.map (Action.event · .low) = tr) :
    Goes s ⟨w, as ++ rest, smp, ans⟩ tr s.draws ⟨w, rest, smp, ans⟩ := by
  subst htr; exact goes_plain s ha w as rest smp ans hp hne

/-- A frame (R74). -/
theorem goes_frame (s : State) (ha : s.agenda = []) (m : Mode) (rs : Level) (b : Byte) (w : Word) (rest : List Action)
    (smp : Option Level) (ans : Option Byte) :
    Goes s ⟨w, frame m rs b ++ rest, smp, ans⟩ (frameTrace m rs b) s.draws ⟨w, rest, smp, ans⟩ :=
  goes_stretch s ha w _ rest smp ans (frame_reads_nothing m rs b) (by simp [frame]) _ (frame_events m rs b)

/-- A whole busy poll (R75). -/
theorem goes_busyPoll (s : State) (ha : s.agenda = []) (m : Mode) (w : Word) (rest : List Action) (smp : Option Level)
    (ans : Option Byte) (n : Nat) (ds : List Level) (hd : s.draws = pollDraws n ++ ds) :
    Goes s ⟨w, busyPoll m ++ rest, smp, ans⟩ (pollTrace m n) ds ⟨w, rest, some .low, ans⟩ := by
  unfold busyPoll pollTrace
  have h1 := goes_stretch s ha w
    ((dataLines m).map (fun i => Action.setDir i .input) ++ [.write .rs .low, .write .rw .high])
    (enablePulse ++ .pollRead :: ((dataLines m).map (fun i => Action.setDir i .output) ++ rest)) smp ans
    (by cases m <;> simp [Action.reads, dataLines]) (by simp)
    (turnTrace m .input ++ [.w .rs .low, .w .rw .high]) (by cases m <;> simp [dataLines, turnTrace, Action.event])
  have h2 := h1.append (by simp [enablePulse]) (goes_poll (s.moved _ _) ha w _ smp ans n ds hd)
  have h3 := h2.append (by cases m <;> simp [dataLines])
    (goes_stretch (s.moved _ ds) ha w ((dataLines m).map (fun i => Action.setDir i .output)) rest (some .low) ans
      (by cases m <;> simp [Action.reads, dataLines]) (by cases m <;> simp [dataLines]) (turnTrace m .output)
      (by cases m <;> simp [dataLines, turnTrace, Action.event]))
  simpa using h3

/-- Where an LCD operation's last event leaves the machine. -/
theorem runsTo_of_goes {s : State} {w : Word} {as : List Action} {tr : List Event} {ds : List Level}
    {smp : Option Level} (hs : s.seq = .idle) (h : Goes s ⟨w, as, none, none⟩ tr ds ⟨w, [], smp, none⟩) :
    RunsTo { s with seq := .running ⟨w, as, none, none⟩ } tr
      { s with pins := s.pins.after tr, trace := s.trace ++ tr, draws := ds } := by
  have he : (s.moved tr ds).resume ⟨w, [], smp, none⟩ =
      { s with pins := s.pins.after tr, trace := s.trace ++ tr, draws := ds } := by
    simp [State.resume, State.moved, hs]
  unfold Goes at h
  rw [he] at h
  exact h

end Sys2Proof.Machine
end

