-- ==== Sys2Proof/Tests/Slice0.lean ====
section
/-! SUPPORT. Tests of one step each, with results taken from spec/95_test_vectors.md or worked out from the rule named, and
for every statement with hypotheses a concrete state that meets them. -/

namespace Sys2Proof.Tests

open Sys2Proof Sys2Proof.Machine

/-! ### Small states -/

/-- Known pins: every latch low, the data lines outputs, the rows high. -/
def pins0 : Pins := ⟨.low, .low, .low, .low, .low, Vector.replicate 8 ⟨.low, .output⟩, Vector.replicate 4 .high⟩

/-- Known pins inside a poll: D7 to D4 inputs, E high. -/
def pinsIn : Pins :=
  { pins0 with e := .high, data := Vector.ofFn fun i => ⟨.low, if 4 ≤ i.val then .input else .output⟩ }

/-- An idle engine with the default INIT sequences (R5). -/
def idle (mode : Mode) (draws : List Level) (agenda : List Turn) : State :=
  { seq := .idle, faultIllegal := false, faultOverrun := false, key := 0x42#8, mode := mode,
    initSeq4 := [0x02#8, 0x28#8, 0x14#8, 0x0F#8, 0x01#8, 0x06#8], initSeq8 := [0x38#8, 0x14#8, 0x0F#8, 0x01#8, 0x06#8],
    pins := pins0,
    draws := draws, drawCount := 0, agenda := agenda, trace := [], replies := [] }

/-- An engine in the middle of the operation of a word. -/
def running (mode : Mode) (w : Word) (todo : List Action) (draws : List Level) (agenda : List Turn) : State :=
  { idle mode draws agenda with
    seq := .running ⟨w, todo, none, (decode w).bind answerOf⟩ }

/-- The next state of an outcome. -/
def nextOf : Host.Outcome State Fault Refusal → Option State
  | .next s => some s
  | .fault _ => none
  | .refused _ => none

theorem next_of_nextOf {o : Host.Outcome State Fault Refusal} {α : Type} {f : State → α} {v : α}
    (h : (nextOf o).map f = some v) : ∃ t, o = .next t ∧ f t = v := by
  cases o with
  | next s => exact ⟨s, rfl, by simpa [nextOf] using h⟩
  | fault r => cases r
  | refused r => simp [nextOf] at h

/-- The events an accepted operation performs when no read departs from its sequence. -/
def planned (o : Host.Outcome State Fault Refusal) : Option (List Event) :=
  (nextOf o).map fun s => s.todo.map (Action.event · .low)

/-! ### Shorthand of 95_test_vectors.md, section 0, written out here again -/

def pulse : List Event := [.w .e .high, .dly .en, .w .e .low, .dly .en]

/-- `B8`: the bits as written, D7 first. -/
def b8 (d7 d6 d5 d4 d3 d2 d1 d0 : Bool) : List Event :=
  [.w (.data 7) (levelOf d7), .w (.data 6) (levelOf d6), .w (.data 5) (levelOf d5), .w (.data 4) (levelOf d4),
   .w (.data 3) (levelOf d3), .w (.data 2) (levelOf d2), .w (.data 1) (levelOf d1), .w (.data 0) (levelOf d0)] ++ pulse

/-- `N4`: the bits as written, D7 first. -/
def n4 (d7 d6 d5 d4 : Bool) : List Event :=
  [.w (.data 7) (levelOf d7), .w (.data 6) (levelOf d6), .w (.data 5) (levelOf d5), .w (.data 4) (levelOf d4)] ++ pulse

/-- `POLL8(0)`. -/
def poll8 : List Event :=
  [.dir 7 .input, .dir 6 .input, .dir 5 .input, .dir 4 .input, .dir 3 .input, .dir 2 .input, .dir 1 .input,
   .dir 0 .input, .w .rs .low, .w .rw .high] ++ pulse ++
  [.r .d7 .low, .dir 7 .output, .dir 6 .output, .dir 5 .output, .dir 4 .output, .dir 3 .output, .dir 2 .output,
   .dir 1 .output, .dir 0 .output]

/-- `POLL4(0)`. -/
def poll4 : List Event :=
  [.dir 7 .input, .dir 6 .input, .dir 5 .input, .dir 4 .input, .w .rs .low, .w .rw .high] ++ pulse ++
  [.r .d7 .low, .dir 7 .output, .dir 6 .output, .dir 5 .output, .dir 4 .output]

/-! ### Decoding (R53 to R60; V-L4 to V-L15) -/

theorem test_decode_init : decode 0x10000000#32 = some .init := by decide
theorem test_decode_sendCmd : decode 0x200000FF#32 = some (.sendCmd 0xFF#8) := by decide
theorem test_decode_printChar : decode 0x30000048#32 = some (.printChar 0x48#8) := by decide
theorem test_decode_clear : decode 0x40000000#32 = some .clear := by decide
theorem test_decode_setCursor : decode 0x5002C80C#32 = some (.setCursor 12#8 200#8 0b10#2) := by decide
theorem test_decode_cmdToChip : decode 0x600100B8#32 = some (.cmdToChip 0xB8#8 0b01#2) := by decide
theorem test_decode_waitBusy : decode 0x70000000#32 = some .waitBusy := by decide
theorem test_decode_scanKey : decode 0x80000000#32 = some .scanKey := by decide

theorem test_decode_illegal_op :
    decode 0x00000000#32 = none ∧ decode 0x90000000#32 = none ∧ decode 0xF0000000#32 = none := by decide

theorem test_decode_must_be_zero :
    decode 0x10000001#32 = none ∧ decode 0x20000100#32 = none ∧ decode 0x30010000#32 = none ∧
    decode 0x48000000#32 = none ∧ decode 0x50040000#32 = none ∧ decode 0x60000140#32 = none ∧
    decode 0x60040040#32 = none ∧ decode 0x70000001#32 = none ∧ decode 0x80000100#32 = none := by decide

theorem test_encode : encode (.setCursor 5#8 0#8 0b01#2) = 0x50010005#32 ∧ encode (.printChar 0x41#8) = 0x30000041#32 ∧
    encode (.cmdToChip 0x40#8 0b11#2) = 0x60030040#32 := by decide

/-- Lane 0 is the least significant byte (R43). -/
theorem test_decodeBytes :
    decodeBytes [0x0C#8, 0xC8#8, 0x02#8, 0x50#8, 0xAA#8] = some (.setCursor 12#8 200#8 0b10#2, [0xAA#8]) ∧
    decodeBytes [0x00#8, 0x00#8, 0x00#8] = none := by decide

theorem test_decodeTableWord : decodeTableWord 32 0x5002C80C = some (.setCursor 12#8 200#8 0b10#2) ∧
    decodeTableWord 32 0x90000000 = none := by decide

/-! ### What WellFormed refuses (R61) -/

theorem test_wf_sendCmd : (AsmLine.sendCmd 256).wellFormed = false ∧ (AsmLine.sendCmd 255).wellFormed = true := by decide
theorem test_wf_printChar : (AsmLine.printChar 256).wellFormed = false := by decide
theorem test_wf_setCursor_page : (AsmLine.setCursor 256 0 .cs1).wellFormed = false := by decide
theorem test_wf_setCursor_column : (AsmLine.setCursor 0 256 .cs1).wellFormed = false := by decide
theorem test_wf_cmdToChip : (AsmLine.cmdToChip 256 .cs2).wellFormed = false := by decide

/-- V-T3, and the assembler's rejection. -/
theorem test_assemble :
    assembleLine (.printString [0x41#8, 0x00#8, 0x42#8]) = some [0x30000041#32] ∧
    assembleLine (.setPage 12 .cs2) = some [0x600200BC#32] ∧ assembleLine (.setColumn 200 .cs1) = some [0x60010048#32] ∧
    assembleLine (.setCursor 5 256 .cs1) = none := by decide

/-! ### The operations -/

/-- V-I8: the start of INIT in EIGHT_BIT, and its length; and a build whose INIT_SEQ_8 is another list (R5, U13). -/
theorem test_init_eightBit :
    (planned (exec .init (idle .eightBit [] []))).map (List.take 15) =
      some (.dly .powerUp :: [.w .rs .low, .w .rw .low] ++ b8 false false true true true false false false) ∧
    (planned (exec .init (idle .eightBit [] []))).map List.length = some 71 ∧
    planned (exec .init { idle .eightBit [] [] with initSeq8 := [0xA5#8] }) =
      some (.dly .powerUp :: [.w .rs .low, .w .rw .low] ++ b8 true false true false false true false true) := by decide

/-- V-I4: the delay, the first command and its poll, and the RS write of the second command. -/
theorem test_init_fourBit :
    (planned (exec .init (idle .fourBit [] []))).map (List.take 35) =
      some (.dly .powerUp :: [.w .rs .low, .w .rw .low] ++ n4 false false false false ++ n4 false false true false ++
        poll4 ++ [.w .rs .low]) := by decide

/-- S1. -/
theorem test_sendCmd_eightBit :
    planned (exec (.sendCmd 0xA5#8) (idle .eightBit [] [])) =
      some ([.w .rs .low, .w .rw .low] ++ b8 true false true false false true false true) := by decide

/-- S2. -/
theorem test_sendCmd_fourBit :
    planned (exec (.sendCmd 0xA5#8) (idle .fourBit [] [])) =
      some ([.w .rs .low, .w .rw .low] ++ n4 true false true false ++ n4 false true false true ++ poll4) := by decide

/-- V-C1. -/
theorem test_printChar_eightBit :
    planned (exec (.printChar 0x48#8) (idle .eightBit [] [])) =
      some ([.w .rs .high, .w .rw .low] ++ b8 false true false false true false false false ++ poll8) := by decide

/-- V-C2. -/
theorem test_printChar_fourBit :
    planned (exec (.printChar 0x41#8) (idle .fourBit [] [])) =
      some ([.w .rs .high, .w .rw .low] ++ n4 false true false false ++ n4 false false false true ++ poll4) := by decide

/-- V-X1. -/
theorem test_clear_eightBit :
    planned (exec .clear (idle .eightBit [] [])) =
      some ([.w .rs .low, .w .rw .low] ++ b8 false false false false false false false true ++ poll8) := by decide

/-- V-X2. -/
theorem test_clear_fourBit :
    planned (exec .clear (idle .fourBit [] [])) =
      some ([.w .rs .low, .w .rw .low] ++ n4 false false false false ++ n4 false false false true ++ poll4) := by decide

/-- V-W2. -/
theorem test_waitBusy : planned (exec .waitBusy (idle .eightBit [] [])) = some poll8 := by decide

/-- V-K2c. -/
theorem test_cmdToChip_cs2 :
    planned (exec (.cmdToChip 0xB8#8 0b10#2) (idle .eightBit [] [])) =
      some ([.w .cs1 .low, .w .cs2 .high, .w .rs .low, .w .rw .low] ++
        b8 true false true true true false false false ++ [.w .cs1 .low, .w .cs2 .low]) := by decide

/-- V-L14: an unrecognized CHIP, with no chip selected. -/
theorem test_cmdToChip_unrecognized :
    planned (exec (.cmdToChip 0x40#8 0b11#2) (idle .fourBit [] [])) =
      some ([.w .cs1 .low, .w .cs2 .low, .w .rs .low, .w .rw .low] ++ n4 false true false false ++
        n4 false false false false ++ [.w .cs1 .low, .w .cs2 .low]) := by decide

/-- S5. -/
theorem test_setCursor :
    planned (exec (.setCursor 5#8 0#8 0b01#2) (idle .eightBit [] [])) =
      some ([.w .cs2 .low, .w .cs1 .high, .w .rs .low, .w .rw .low] ++
        b8 true false true true true true false true ++ [.w .cs1 .low, .w .cs2 .low] ++
        ([.w .cs2 .low, .w .cs1 .high, .w .rs .low, .w .rw .low] ++
          b8 false true false false false false false false ++ [.w .cs1 .low, .w .cs2 .low])) := by decide

/-- V-K5c: 12 and 200 alias to page 4 and column 72. -/
theorem test_setCursor_aliases : setPageByte 12#8 = 0xBC#8 ∧ setColumnByte 200#8 = 0x48#8 := by decide

/-- V-K0: the first row of a scan, and its 40 events. -/
theorem test_scanKey :
    (planned (exec .scanKey (idle .fourBit [] []))).map (List.take 7) =
      some [.w (.row 0) .high, .w (.row 1) .high, .w (.row 2) .high, .w (.row 3) .high, .w (.row 0) .low, .dly .row,
        .r (.col 0) .low] ∧
    (planned (exec .scanKey (idle .fourBit [] []))).map List.length = some 40 := by decide

/-- R91, R93: a low column is followed by the debounce delay and a second read of the same column. -/
theorem test_scan_low_column :
    (nextOf (step (running .fourBit 0x80000000#32 [.scanRead 3 2, .scanRead 3 3] [.low] []))).map
      (fun t => (t.trace, t.todo)) =
      some ([.r (.col 2) .low], [.delay .deb, .confirmRead 3 2, .scanRead 3 3]) := by decide

/-! ### Positions, faults, registers, reset -/

/-- R75: a sample of 1 starts another iteration, and the two leave different positions. -/
theorem test_poll_high_repeats :
    (nextOf (step (running .fourBit 0x70000000#32 [.pollRead, .setDir 7 .output] [.high] []))).map State.todo =
      some [.write .e .high, .delay .en, .write .e .low, .delay .en, .pollRead, .setDir 7 .output] := by decide

/-- R66: the last event ends the operation, and RESULT.KEY takes 0x00 for "no key" (R93). -/
theorem test_scan_ends_without_key :
    (nextOf (step (running .fourBit 0x80000000#32 [.scanRead 3 3] [.high] []))).map (fun t => (t.seq, t.key)) =
      some (.idle, 0x00#8) := by decide

/-- R22: another operation's end leaves RESULT.KEY alone. -/
theorem test_other_end_keeps_key :
    (nextOf (step (running .fourBit 0x600100B8#32 [.write .cs2 .low] [] []))).map (fun t => (t.seq, t.key)) =
      some (.idle, 0x42#8) := by decide

/-- V-L4: STATUS 2, no event. -/
theorem test_illegal :
    (nextOf (step (idle .eightBit [] [.host (.write 0 4 0x00000000#32)]))).map (fun t => (t.statusWord, t.trace)) =
      some (0x00000002#32, []) := by decide

/-- V-L16: STATUS 5, and the running operation goes on where it was. -/
theorem test_overrun :
    (nextOf (step (running .eightBit 0x10000000#32 [.delay .en] [] [.host (.write 0 4 0x40000000#32)]))).map
      (fun t => (t.statusWord, t.todo)) = some (0x00000005#32, [.delay .en]) := by decide

/-- V-L2, V-L3: CONFIG. -/
theorem test_config :
    (nextOf (step (idle .fourBit [] [.host (.read 0x0C 4)]))).map State.replies = some [⟨0x0C, 0x00000001#32⟩] ∧
    (nextOf (step (idle .eightBit [] [.host (.read 0x0C 4)]))).map State.replies = some [⟨0x0C, 0x00000000#32⟩] := by
  decide

/-- V-L18: the refused accesses. -/
theorem test_refused :
    nextOf (step (idle .fourBit [] [.host (.read 0x00 4)])) = none ∧
    nextOf (step (idle .fourBit [] [.host (.write 0x04 4 0#32)])) = none ∧
    nextOf (step (idle .fourBit [] [.host (.read 0x02 4)])) = none ∧
    nextOf (step (idle .fourBit [] [.host (.read 0x10 4)])) = none ∧
    nextOf (step (idle .fourBit [] [.host (.write 0x00 1 0#32)])) = none := by decide

/-- V-L20: a reset after the rise of E leaves E high. -/
theorem test_reset_mid_pulse :
    (nextOf (step { running .fourBit 0x70000000#32 [.delay .en, .pollRead] [] [.reset] with pins := pinsIn })).map
      (fun t => (t.seq, t.statusWord, t.resultWord, t.pins.e)) = some (.idle, 0#32, 0#32, .high) := by decide

/-- R31: latches keep their level through a direction change; an input line is not driven. -/
theorem test_direction_keeps_latch :
    ((pins0.setLevel (.data 6) .high).setDir 6 .input).level (.data 6) = .high ∧
    ({ idle .fourBit [] [] with pins := pins0.setDir 6 .input }.driven (.data 6)) = none := by decide

/-! ### Witnesses: states that meet the hypotheses of the statements -/

theorem positionOk_of_suffix {s : State} {p : Progress} (i : Instr) (hs : s.seq = .running p)
    (hd : decode p.word = some i) (hne : p.todo ≠ []) (ht : p.todo <:+ scriptOf s.mode s.initSeq i)
    (ha : p.answer = answerOf i) : s.positionOk := by
  intro q hq
  rw [hs] at hq
  cases hq
  exact ⟨i, hd, ⟨hne, .inl ht⟩, ha⟩

theorem positionOk_of_idle {s : State} (hs : s.seq = .idle) : s.positionOk := by
  intro q hq
  rw [hs] at hq
  cases hq

/-- CMD_TO_CHIP about to release its chip. -/
def releasing (agenda : List Turn) : State :=
  { running .fourBit 0x600100B8#32 [.write .cs1 .low, .write .cs2 .low] [] agenda with pins := { pins0 with cs1 := .high } }

theorem releasing_positionOk (agenda : List Turn) : (releasing agenda).positionOk :=
  positionOk_of_suffix (.cmdToChip 0xB8#8 0b01#2) rfl (by decide) (by decide)
    ⟨csSelect 0b01#2 ++ frame .fourBit .low 0xB8#8, rfl⟩ rfl

/-- SCAN_KEY at its last column. -/
def scanning : State := running .fourBit 0x80000000#32 [.scanRead 3 3] [.high] []

theorem scanning_positionOk : scanning.positionOk :=
  positionOk_of_suffix .scanKey rfl (by decide) (by decide) (by decide) (by decide)

/-- WAIT_BUSY about to sample D7. -/
def sampling (draws : List Level) : State :=
  { running .fourBit 0x70000000#32
      [.pollRead, .setDir 7 .output, .setDir 6 .output, .setDir 5 .output, .setDir 4 .output] draws [] with
    pins := pinsIn }

theorem sampling_positionOk (draws : List Level) : (sampling draws).positionOk :=
  positionOk_of_suffix .waitBusy rfl (by decide) (by simp)
    ⟨(dataLines .fourBit).map (fun i => Action.setDir i .input) ++ [.write .rs .low, .write .rw .high] ++ enablePulse, rfl⟩
    (by decide)

theorem sampling_directionsOk (draws : List Level) : (sampling draws).directionsOk := by
  unfold State.directionsOk
  show ∀ i ∈ dataLines .fourBit, pinsIn.data[i].dir = if insidePoll i (sampling []).todo then .input else .output
  decide

/-- SCAN_KEY waiting for the release of key (2, 3). -/
def holding (draws : List Level) : State := running .fourBit 0x80000000#32 [.releaseRead 2 3] draws []

theorem holding_positionOk (draws : List Level) : (holding draws).positionOk := by
  intro q hq
  cases hq
  refine ⟨.scanKey, by decide, ⟨by simp, .inr ⟨2, 3, scanRow 3, ?_, .inr (.inr rfl)⟩⟩, by decide⟩
  show (Action.scanRead 2 3 :: scanRow 3) <:+ scanKeyScript
  decide

theorem witness_DecodeOfEncodeReturnsTheInstruction :
    Instr.wellFormed .init = true ∧ Instr.wellFormed (.sendCmd 0xFF#8) = true ∧
    Instr.wellFormed (.printChar 0x00#8) = true ∧ Instr.wellFormed .clear = true ∧
    Instr.wellFormed (.setCursor 0xFF#8 0xFF#8 0b11#2) = true ∧ Instr.wellFormed (.cmdToChip 0x00#8 0b00#2) = true ∧
    Instr.wellFormed .waitBusy = true ∧ Instr.wellFormed .scanKey = true := by decide

theorem witness_EncodeOfDecodeReturnsTheWord : decode 0x50010005#32 = some (.setCursor 5#8 0#8 0b01#2) := by decide

theorem witness_StepRunsTheDecodedCommand :
    (idle .fourBit [] [.host (.write 0x00 4 0x70000000#32), .reset]).agenda =
      .host (.write 0x00 4 0x70000000#32) :: [.reset] ∧
    (idle .fourBit [] [.host (.write 0x00 4 0x70000000#32), .reset]).seq = .idle ∧
    decode 0x70000000#32 = some .waitBusy := by decide

theorem witness_AcceptedCommandChangesOnlyTheSequencer :
    (idle .eightBit [] []).seq = .idle ∧ scanning.busy = true := by decide

theorem witness_IllegalWordSetsOnlyFaultIllegal :
    ((idle .fourBit [] [.host (.write 0x00 4 0x90000000#32)]).agenda = .host (.write 0x00 4 0x90000000#32) :: [] ∧
      (idle .fourBit [] [.host (.write 0x00 4 0x90000000#32)]).seq = .idle ∧ legal 0x90000000#32 = false) ∧
    (∃ t, exec .clear (idle .fourBit [] []) = .next t ∧ t.busy = true) ∧ legal 0x8FFFFFFF#32 = false ∧
    legal 0x5003FFFF#32 = true :=
  ⟨by decide, next_of_nextOf (by decide), by decide, by decide⟩

theorem witness_OverrunSetsOnlyItsBitAndDisturbsNothing :
    (releasing [.host (.write 0x00 4 0x90000000#32)]).agenda = .host (.write 0x00 4 0x90000000#32) :: [] ∧
    (releasing [.host (.write 0x00 4 0x90000000#32)]).seq ≠ .idle := by decide

/-- An illegal word, a word during an operation, a set bit that stays, and a reset. -/
theorem witness_FaultBitsHaveOneCauseAndOnlyResetClearsThem :
    (∃ t, step (idle .fourBit [] [.host (.write 0x00 4 0x90000000#32)]) = .next t ∧ t.faultIllegal = true) ∧
    (∃ t, step (releasing [.host (.write 0x00 4 0x90000000#32)]) = .next t ∧
      (t.faultIllegal, t.faultOverrun) = (false, true)) ∧
    (∃ t, step { idle .fourBit [] [.engine] with faultIllegal := true } = .next t ∧ t.faultIllegal = true) ∧
    (∃ t, step { idle .fourBit [] [.reset] with faultIllegal := true } = .next t ∧ t.faultIllegal = false) :=
  ⟨next_of_nextOf (by decide), next_of_nextOf (by decide), next_of_nextOf (by decide), next_of_nextOf (by decide)⟩

theorem witness_ResetClearsTheInterfaceAndWritesNoPin :
    (releasing [.reset, .engine]).agenda = .reset :: [.engine] := by decide

theorem witness_AdmittedReadOnlyReturnsItsRegister :
    (idle .fourBit [] [.host (.read 0x04 4)]).agenda = .host (.read 0x04 4) :: [] ∧
    (releasing [.host (.read 0x08 4)]).agenda = .host (.read 0x08 4) :: [] ∧
    (idle .fourBit [] [.host (.read 0x0C 4)]).agenda = .host (.read 0x0C 4) :: [] := by decide

/-- A read of CMD, a read beyond the registers, a narrow read; a write to STATUS, a narrow write; and an admitted one. -/
theorem witness_OnlyInadmissibleAccessesAreRefused :
    ((idle .fourBit [] [.host (.read 0x00 4)]).agenda = .host (.read 0x00 4) :: [] ∧
      ¬(4 = 4 ∧ (0x00 = 0x04 ∨ 0x00 = 0x08 ∨ 0x00 = 0x0C))) ∧
    ((idle .fourBit [] [.host (.read 0x10 4)]).agenda = .host (.read 0x10 4) :: [] ∧
      ¬(4 = 4 ∧ (0x10 = 0x04 ∨ 0x10 = 0x08 ∨ 0x10 = 0x0C))) ∧
    ((idle .fourBit [] [.host (.read 0x04 2)]).agenda = .host (.read 0x04 2) :: [] ∧
      ¬(2 = 4 ∧ (0x04 = 0x04 ∨ 0x04 = 0x08 ∨ 0x04 = 0x0C))) ∧
    ((idle .fourBit [] [.host (.write 0x04 4 0#32)]).agenda = .host (.write 0x04 4 0#32) :: [] ∧
      ¬(4 = 4 ∧ 0x04 = 0x00)) ∧
    ((idle .fourBit [] [.host (.write 0x00 1 0#32)]).agenda = .host (.write 0x00 1 0#32) :: [] ∧
      ¬(1 = 4 ∧ 0x00 = 0x00)) ∧
    (∀ (a : Access) (rest : List Turn),
      (idle .fourBit [] [.host (.write 0x00 4 0#32)]).agenda = .host a :: rest → a.admitted = true) := by
  refine ⟨by decide, by decide, by decide, by decide, by decide, fun a rest h => ?_⟩
  cases h
  rfl

theorem witness_NothingChangesTheBusMode :
    (∃ t, step scanning = .next t ∧ t.mode = .fourBit) ∧
    (∃ t, exec .init (idle .eightBit [] []) = .next t ∧ t.mode = .eightBit) :=
  ⟨next_of_nextOf (by decide), next_of_nextOf (by decide)⟩

theorem witness_NothingChangesTheInitSequences :
    (∃ t, step (idle .fourBit [] [.reset]) = .next t ∧ t.initSeq8.length = 5) ∧
    (∃ t, exec .init (idle .eightBit [] []) = .next t ∧ t.initSeq8.length = 5) :=
  ⟨next_of_nextOf (by decide), next_of_nextOf (by decide)⟩

/-- A scan that ends without a key, one whose key is released, and an operation that is no scan. -/
theorem witness_ResultKeyChangesOnlyWhenAScanEnds :
    (scanning.positionOk ∧ scanning.agenda.head? ≠ some .reset ∧ (∃ t, step scanning = .next t ∧ t.seq = .idle) ∧
      ∃ p, scanning.seq = .running p ∧ decode p.word = some .scanKey ∧ ∀ r c, p.todo ≠ [.releaseRead r c]) ∧
    ((holding [.high]).positionOk ∧ (holding [.high]).agenda.head? ≠ some .reset ∧
      (∃ t, step (holding [.high]) = .next t ∧ t.seq = .idle) ∧
      ∃ p, (holding [.high]).seq = .running p ∧ decode p.word = some .scanKey ∧ p.todo = [.releaseRead 2 3]) ∧
    ((releasing []).positionOk ∧ (releasing []).agenda.head? ≠ some .reset ∧
      (∃ t, step (releasing []) = .next t ∧ t.key = 0x42#8) ∧
      ∃ p, (releasing []).seq = .running p ∧ decode p.word ≠ some .scanKey) :=
  ⟨⟨scanning_positionOk, by decide, next_of_nextOf (by decide), _, rfl, by decide, by simp⟩,
    ⟨holding_positionOk _, by decide, next_of_nextOf rfl, _, rfl, by decide, rfl⟩,
    releasing_positionOk _, by decide, next_of_nextOf (by decide), _, rfl, by decide⟩

theorem witness_EachStepPerformsAtMostOneEvent :
    (∃ t, step (releasing []) = .next t ∧ t.trace = [.w .cs1 .low]) ∧
    (∃ t, step (releasing [.host (.read 0x04 4)]) = .next t ∧ t.trace = []) :=
  ⟨next_of_nextOf (by decide), next_of_nextOf (by decide)⟩

/-- A write and a read to perform, a listed engine turn, and an idle engine. -/
theorem witness_EngineTurnPerformsTheNextEvent :
    ((releasing []).positionOk ∧ (releasing []).agenda = [] ∧ (releasing []).busy = true ∧
      ∃ p rest, (releasing []).seq = .running p ∧ p.todo = .write .cs1 .low :: rest) ∧
    ((sampling [.high]).positionOk ∧ (sampling [.high]).agenda = [] ∧
      ∃ p rest, (sampling [.high]).seq = .running p ∧ p.todo = .pollRead :: rest) ∧
    ((releasing [.engine]).positionOk ∧ (releasing [.engine]).agenda.head? = some .engine ∧
      (releasing [.engine]).busy = true) ∧
    ((idle .fourBit [] [.engine]).positionOk ∧ (idle .fourBit [] [.engine]).agenda.head? = some .engine ∧
      (idle .fourBit [] [.engine]).seq = .idle) :=
  ⟨⟨releasing_positionOk _, rfl, rfl, _, _, rfl, rfl⟩, ⟨sampling_positionOk _, rfl, _, _, rfl, rfl⟩,
    ⟨releasing_positionOk _, rfl, rfl⟩, positionOk_of_idle rfl, rfl, rfl⟩

/-- Each kind of read, with either level next. -/
theorem witness_EachReadSteersTheSequence :
    ∀ l ∈ [Level.low, .high],
      ((sampling [l]).agenda = [] ∧ (sampling [l]).draws = l :: [] ∧ (sampling [l]).seq = .running ⟨0x70000000#32,
        .pollRead :: [.setDir 7 .output, .setDir 6 .output, .setDir 5 .output, .setDir 4 .output], none, none⟩) ∧
      ((running .fourBit 0x80000000#32 [.scanRead 3 3] [l] []).agenda = [] ∧
        (running .fourBit 0x80000000#32 [.scanRead 3 3] [l] []).draws = l :: [] ∧
        (running .fourBit 0x80000000#32 [.scanRead 3 3] [l] []).seq =
          .running ⟨0x80000000#32, .scanRead 3 3 :: [], none, some 0x00#8⟩) ∧
      ((running .fourBit 0x80000000#32 [.confirmRead 0 2, .scanRead 0 3] [l] []).draws = l :: [] ∧
        (running .fourBit 0x80000000#32 [.confirmRead 0 2, .scanRead 0 3] [l] []).seq =
          .running ⟨0x80000000#32, .confirmRead 0 2 :: [.scanRead 0 3], none, some 0x00#8⟩) ∧
      ((holding [l]).agenda = [] ∧ (holding [l]).draws = l :: [] ∧
        (holding [l]).seq = .running ⟨0x80000000#32, [.releaseRead 2 3], none, some 0x00#8⟩) := by decide

theorem witness_EveryStepKeepsTheSequencerAtAPosition :
    ((sampling [.high]).positionOk ∧ ∃ t, step (sampling [.high]) = .next t ∧ t.busy = true) ∧
    ((holding [.low]).positionOk ∧ ∃ t, step (holding [.low]) = .next t ∧ t.todo = [.releaseRead 2 3]) :=
  ⟨⟨sampling_positionOk _, next_of_nextOf (by decide)⟩, holding_positionOk _, next_of_nextOf (by decide)⟩

theorem witness_DataLinesAreInputsOnlyInsideAPoll :
    (sampling [.low]).positionOk ∧ (sampling [.low]).directionsOk ∧ (sampling [.low]).agenda.head? ≠ some .reset ∧
      ∃ t, step (sampling [.low]) = .next t ∧ t.trace = [.r .d7 .low] :=
  ⟨sampling_positionOk _, sampling_directionsOk _, by decide, next_of_nextOf (by decide)⟩

theorem witness_BusyFlagIsSampledOnAnInputLine :
    (sampling []).positionOk ∧ (sampling []).directionsOk ∧
      ∃ p rest, (sampling []).seq = .running p ∧ p.todo = .pollRead :: rest :=
  ⟨sampling_positionOk _, sampling_directionsOk _, _, _, rfl, rfl⟩

/-- CS_SELECT(CS2) with CS1 still high, and an idle engine. -/
theorem witness_ChipSelectsAreNeverBothHigh :
    (({ running .fourBit 0x600200B8#32 (csSelect 0b10#2) [] [] with pins := { pins0 with cs1 := .high } } : State).chipSelectsOk ∧
      ∃ t, step { running .fourBit 0x600200B8#32 (csSelect 0b10#2) [] [] with pins := { pins0 with cs1 := .high } } =
        .next t ∧ t.pins.cs1 = .low) ∧
    ((idle .fourBit [] []).seq = .idle ∧
      ¬((idle .fourBit [] []).pins.cs1 = .high ∧ (idle .fourBit [] []).pins.cs2 = .high)) := by
  refine ⟨⟨?_, next_of_nextOf (by decide)⟩, by decide⟩
  show neverBoth .high .low [.write .cs1 .low, .write .cs2 .high]
  simp [neverBoth]

/-- An LCD operation, a scan, and an idle engine. -/
theorem witness_EachLineChangesOnlyUnderItsWriters :
    ((sampling [.low]).positionOk ∧ (∃ t, step (sampling [.low]) = .next t ∧ t.trace = [.r .d7 .low]) ∧
      ∃ p, (sampling [.low]).seq = .running p ∧ decode p.word = some .waitBusy) ∧
    (scanning.positionOk ∧ (∃ t, step scanning = .next t ∧ t.key = 0x00#8) ∧
      ∃ p, scanning.seq = .running p ∧ decode p.word = some .scanKey) ∧
    ((idle .fourBit [] []).positionOk ∧ (∃ t, step (idle .fourBit [] []) = .next t ∧ t.trace = []) ∧
      (idle .fourBit [] []).seq = .idle) :=
  ⟨⟨sampling_positionOk _, next_of_nextOf (by decide), _, rfl, by decide⟩,
    ⟨scanning_positionOk, next_of_nextOf (by decide), _, rfl, by decide⟩,
    positionOk_of_idle rfl, next_of_nextOf (by decide), rfl⟩

theorem witness_FourBitModeNeverTouchesTheLowDataLines :
    (releasing []).positionOk ∧ (releasing []).mode = .fourBit ∧
      (∃ t, step (releasing []) = .next t ∧ t.trace = (releasing []).trace ++ [.w .cs1 .low]) ∧
      (0 : Fin 8).val < 4 ∧ (3 : Fin 8).val < 4 :=
  ⟨releasing_positionOk _, rfl, next_of_nextOf (by decide), by decide, by decide⟩

/-- A line made an output, with its latch high; and one made an input. -/
theorem witness_DirectionChangesKeepEveryLatch :
    (∃ t, step { running .fourBit 0x70000000#32 [.setDir 7 .output, .setDir 6 .output] [] [] with
        pins := pinsIn.setLevel (.data 7) .high } = .next t ∧ t.trace = [.dir 7 .output]) ∧
    (∃ t, step (running .fourBit 0x70000000#32 (busyPoll .fourBit) [] []) = .next t ∧ t.trace = [.dir 7 .input]) :=
  ⟨next_of_nextOf (by decide), next_of_nextOf (by decide)⟩

/-- The default sequences, and an empty one. -/
theorem witness_InitPerformsItsCommandSequence :
    ((idle .eightBit [] []).seq = .idle ∧ (idle .eightBit [] []).agenda = [] ∧ (idle .eightBit [] []).mode = .eightBit) ∧
    (let s := idle .fourBit ([0, 0, 2, 0, 0, 1].flatMap pollDraws ++ [.high]) []
     s.seq = .idle ∧ s.agenda = [] ∧ s.mode = .fourBit ∧ [0, 0, 2, 0, 0, 1].length = s.initSeq4.length ∧
       s.draws = [0, 0, 2, 0, 0, 1].flatMap pollDraws ++ [.high]) ∧
    (let s := { idle .fourBit [] [] with initSeq4 := [] }
     s.seq = .idle ∧ s.agenda = [] ∧ s.mode = .fourBit ∧ ([] : List Nat).length = s.initSeq4.length ∧
       s.draws = ([] : List Nat).flatMap pollDraws ++ []) := by decide

theorem witness_SendCmdSendsItsByteUnchanged :
    ((idle .eightBit [] []).seq = .idle ∧ (idle .eightBit [] []).agenda = [] ∧ (idle .eightBit [] []).mode = .eightBit) ∧
    ((idle .fourBit [.high, .low, .high] []).seq = .idle ∧ (idle .fourBit [.high, .low, .high] []).agenda = [] ∧
      (idle .fourBit [.high, .low, .high] []).mode = .fourBit ∧
      (idle .fourBit [.high, .low, .high] []).draws = pollDraws 1 ++ [.high]) := by decide

/-- PRINT_CHAR, CLEAR and WAIT_BUSY ask the same: in either mode an idle engine and the answers of one poll. -/
theorem witness_PrintCharSendsDataThenPolls :
    ((idle .eightBit [.low] []).seq = .idle ∧ (idle .eightBit [.low] []).agenda = [] ∧
      (idle .eightBit [.low] []).draws = pollDraws 0 ++ []) ∧
    ((idle .fourBit [.high, .high, .low] []).seq = .idle ∧ (idle .fourBit [.high, .high, .low] []).agenda = [] ∧
      (idle .fourBit [.high, .high, .low] []).draws = pollDraws 2 ++ []) := by decide

theorem witness_ClearSendsOneThenPollsOnce :
    ((idle .eightBit [.low] []).seq = .idle ∧ (idle .eightBit [.low] []).agenda = [] ∧
      (idle .eightBit [.low] []).draws = pollDraws 0 ++ []) ∧
    ((idle .fourBit [.high, .high, .low] []).seq = .idle ∧ (idle .fourBit [.high, .high, .low] []).agenda = [] ∧
      (idle .fourBit [.high, .high, .low] []).draws = pollDraws 2 ++ []) :=
  witness_PrintCharSendsDataThenPolls

theorem witness_WaitBusyPollsUntilD7ReadsLow :
    ((idle .eightBit [.low] []).seq = .idle ∧ (idle .eightBit [.low] []).agenda = [] ∧
      (idle .eightBit [.low] []).draws = pollDraws 0 ++ []) ∧
    ((idle .fourBit [.high, .high, .low] []).seq = .idle ∧ (idle .fourBit [.high, .high, .low] []).agenda = [] ∧
      (idle .fourBit [.high, .high, .low] []).draws = pollDraws 2 ++ []) :=
  witness_PrintCharSendsDataThenPolls

theorem witness_CmdToChipFramesItsByteBetweenSelectAndRelease :
    (idle .eightBit [] []).seq = .idle ∧ (idle .eightBit [] []).agenda = [] := by decide

theorem witness_SetCursorSendsPageThenColumn :
    (idle .fourBit [] []).seq = .idle ∧ (idle .fourBit [] []).agenda = [] := by decide

/-- V-K2: key (2, 3), held through two release reads. -/
theorem witness_ScanKeyRunsItsPseudocode :
    (idle .fourBit (List.replicate 11 .high ++ [.low, .low, .low, .low, .high]) []).seq = .idle ∧
    (idle .fourBit (List.replicate 11 .high ++ [.low, .low, .low, .low, .high]) []).agenda = [] ∧
    ∃ tr key rest, scanPass scanOrder
      (idle .fourBit (List.replicate 11 .high ++ [.low, .low, .low, .low, .high]) []).draws = some (tr, key, rest) :=
  ⟨rfl, rfl, _, _, _, rfl⟩

/-- (2, 3) after a bounce of (0, 1); and the boundary (0, 0), with no release read of 0. -/
theorem witness_ScanReturnsTheFirstConfirmedKey :
    (let bounces := false :: true :: List.replicate 9 false
     let s := idle .fourBit (bounces.flatMap (fun b => if b then [Level.low, .high] else [.high]) ++ [.low, .low] ++
       List.replicate 2 .low ++ .high :: []) []
     s.seq = .idle ∧ s.agenda = [] ∧ bounces.length = 4 * (2 : Fin 4).val + (3 : Fin 4).val ∧
     s.draws = bounces.flatMap (fun b => if b then [Level.low, .high] else [.high]) ++ [.low, .low] ++
       List.replicate 2 .low ++ .high :: []) ∧
    (let s := idle .fourBit [.low, .low, .high] []
     s.seq = .idle ∧ s.agenda = [] ∧ ([] : List Bool).length = 4 * (0 : Fin 4).val + (0 : Fin 4).val ∧
     s.draws = ([] : List Bool).flatMap (fun b => if b then [Level.low, .high] else [.high]) ++ [.low, .low] ++
       List.replicate 0 .low ++ .high :: []) := by decide

/-- V-K3: one bounce at (0, 1), no key. -/
theorem witness_ScanWithoutAKeyReturnsZero :
    let bounces := false :: true :: List.replicate 14 false
    let s := idle .fourBit (bounces.flatMap (fun b => if b then [Level.low, .high] else [.high]) ++ []) []
    s.seq = .idle ∧ s.agenda = [] ∧ bounces.length = 16 ∧
      s.draws = bounces.flatMap (fun b => if b then [Level.low, .high] else [.high]) ++ [] := by decide

/-- V-K0 and V-K5. -/
theorem witness_RowLinesAfterAScan :
    ((idle .eightBit (List.replicate 16 .high) []).seq = .idle ∧ (idle .eightBit (List.replicate 16 .high) []).agenda = [] ∧
      ∃ tr rest, scanPass scanOrder (idle .eightBit (List.replicate 16 .high) []).draws = some (tr, 0x00#8, rest)) ∧
    ((idle .fourBit [.low, .low, .high] []).seq = .idle ∧ (idle .fourBit [.low, .low, .high] []).agenda = [] ∧
      ∃ tr rest, scanPass scanOrder (idle .fourBit [.low, .low, .high] []).draws = some (tr, keymap 0 0, rest)) :=
  ⟨⟨rfl, rfl, _, _, rfl⟩, rfl, rfl, _, _, rfl⟩

theorem witness_BusyPollRepeatsForEveryOne :
    (sampling [.high, .high]).agenda = [] ∧
    (sampling [.high, .high]).seq = .running ⟨0x70000000#32,
      .pollRead :: [.setDir 7 .output, .setDir 6 .output, .setDir 5 .output, .setDir 4 .output], none, none⟩ ∧
    (sampling [.high, .high]).draws = List.replicate (1 + 1) .high ++ [] := by decide

theorem witness_ReleaseWaitRepeatsForEveryZero :
    (holding [.low, .low, .high]).agenda = [] ∧
    (holding [.low, .low, .high]).seq = .running ⟨0x80000000#32, [.releaseRead 2 3], none, some 0x00#8⟩ ∧
    (holding [.low, .low, .high]).draws = List.replicate (1 + 1) .low ++ [.high] := by decide

theorem witness_EnablePulseLeavesELow :
    (running .fourBit 0x20000028#32 (enablePulse ++ busyPoll .fourBit) [] []).agenda = [] ∧
    (running .fourBit 0x20000028#32 (enablePulse ++ busyPoll .fourBit) [] []).seq =
      .running ⟨0x20000028#32, enablePulse ++ busyPoll .fourBit, none, none⟩ ∧ busyPoll .fourBit ≠ [] := by decide

theorem witness_SendCmdFramePulsesCarryItsByte :
    ((idle .eightBit [] []).seq = .idle ∧ (idle .eightBit [] []).agenda = [] ∧ (idle .eightBit [] []).mode = .eightBit) ∧
    ((idle .fourBit [] []).seq = .idle ∧ (idle .fourBit [] []).agenda = [] ∧ (idle .fourBit [] []).mode = .fourBit) := by
  decide

theorem idle_launched (mode : Mode) (draws : List Level) : (idle mode draws []).launched := by
  unfold State.launched
  show ∀ i ∈ dataLines mode, pins0.data[i].dir = .output
  cases mode <;> decide

/-- Both modes, with the answers of one poll and with those of INIT's six. -/
theorem witness_EveryEnablePulseIsTheBusCycleOfItsRule :
    ((idle .eightBit [.low] []).seq = .idle ∧ (idle .eightBit [.low] []).agenda = [] ∧
      (idle .eightBit [.low] []).launched ∧ (idle .eightBit [.low] []).mode = .eightBit ∧
      (idle .eightBit [.low] []).draws = pollDraws 0 ++ []) ∧
    (let s := idle .fourBit ([0, 0, 2, 0, 0, 1].flatMap pollDraws ++ [.high]) []
     s.seq = .idle ∧ s.agenda = [] ∧ s.launched ∧ s.mode = .fourBit ∧ [0, 0, 2, 0, 0, 1].length = s.initSeq4.length ∧
       s.draws = [0, 0, 2, 0, 0, 1].flatMap pollDraws ++ [.high] ∧
       s.draws = pollDraws 0 ++ ([0, 2, 0, 0, 1].flatMap pollDraws ++ [.high])) :=
  ⟨⟨rfl, rfl, idle_launched _ _, rfl, rfl⟩, rfl, rfl, idle_launched _ _, rfl, rfl, rfl, rfl⟩

/-- The states of EveryEnablePulseIsTheBusCycleOfItsRule meet these hypotheses too; the lengths are R124's. -/
theorem witness_OperationsTakeAtLeastTheirDelays :
    ((idle .eightBit [.low] []).seq = .idle ∧ (idle .eightBit [.low] []).agenda = [] ∧
      (idle .eightBit [.low] []).mode = .eightBit ∧ (idle .eightBit [.low] []).draws = pollDraws 0 ++ [] ∧
      (idle .eightBit [.low] []).initSeq8.length = 5) ∧
    (let s := idle .fourBit ([0, 0, 2, 0, 0, 1].flatMap pollDraws ++ [.high]) []
     s.seq = .idle ∧ s.agenda = [] ∧ s.mode = .fourBit ∧ [0, 0, 2, 0, 0, 1].length = s.initSeq4.length ∧
       s.draws = [0, 0, 2, 0, 0, 1].flatMap pollDraws ++ [.high] ∧ s.initSeq4.length = 6 ∧
       s.draws = pollDraws 0 ++ ([0, 2, 0, 0, 1].flatMap pollDraws ++ [.high])) := by decide

/-- The first and the last position of the range, in both modes. -/
theorem witness_OnlyTheAddressedChipIsSelectedDuringItsFrame :
    ((idle .fourBit [] []).seq = .idle ∧ (idle .fourBit [] []).agenda = []) ∧
    (2 ≤ 2 ∧ 2 + 2 ≤ (chipTrace .eightBit 0xB8#8 0b01#2).length) ∧
    (2 ≤ 16 ∧ 16 + 2 ≤ (chipTrace .eightBit 0xB8#8 0b01#2).length) ∧
    (2 ≤ 20 ∧ 20 + 2 ≤ (chipTrace .fourBit 0xB8#8 0b10#2).length) := by decide

theorem witness_PageAndColumnBytesFollowTheirFormulas : (0#8).toNat < 64 ∧ (63#8).toNat < 64 := by decide

theorem witness_PrintStringStopsAtTheFirstZero : ∀ x ∈ [0x41#8, 0xFF#8], x ≠ 0x00#8 := by decide

theorem witness_AssemblerGivesEachLineItsWord :
    (255 < 256 ∧ 0 < 256 ∧ (∀ chip : ChipName, ∃ k, (chip, k) ∈
      [(ChipName.cs1, 0b01), (.cs2, 0b10), (.chip0, 0b00), (.chip3, 0b11)])) ∧ 256 ≤ 256 := by
  refine ⟨⟨by decide, by decide, fun chip => ?_⟩, by decide⟩
  cases chip <;> simp

theorem witness_HostReadsNeverDisturbTheEngine :
    ∀ x ∈ [Turn.engine, .host (.read 0x04 4), .engine, .host (.read 0x08 4), .host (.read 0x0C 4)],
      x = .engine ∨ x = .host (.read 0x04 4) ∨ x = .host (.read 0x08 4) ∨ x = .host (.read 0x0C 4) := by decide

/-- Its one hypothesis is met by equal positions. -/
theorem witness_KeymapGivesEachSymbolOnce : keymap 3 3 = keymap 3 3 := rfl

end Sys2Proof.Tests
end

section
/-! The statements of 00_scope.md about one turn: what it leaves unchanged, what it performs, and that the host's reads
do not disturb it. -/

namespace Sys2Proof.Machine

/-! ### The INIT sequences -/

theorem step_initSeqs {s t : State} (h : step s = .next t) :
    t.initSeq4 = s.initSeq4 ∧ t.initSeq8 = s.initSeq8 := by
  obtain ⟨_, rfl⟩ | ⟨rest, _, rfl⟩ | ⟨_, _, _, _, _, rfl⟩ | ⟨_, _, _, _, rfl⟩ | ⟨_, _, _, _, _, rfl⟩ |
    ⟨_, _, _, _, _, _, rfl⟩ | ⟨_, _, rfl⟩ := step_cases h
  · exact engineTurn_initSeqs s
  · exact engineTurn_initSeqs { s with agenda := rest }
  all_goals exact ⟨rfl, rfl⟩

/-- An operation's meaning is the acceptance of its word, or OVERRUN while another one runs (R66, R98). -/
theorem exec_cases {i : Instr} {s t : State} (h : exec i s = .next t) :
    (s.seq = .idle ∧ t = { s with seq := .running ⟨encode i, scriptOf s.mode s.initSeq i, none, answerOf i⟩ }) ∨
    (s.busy = true ∧ t = s.raiseFault .overrun) := by
  cases hs : s.seq with
  | idle => rw [exec_of_idle i s hs] at h; cases h; exact .inl ⟨rfl, rfl⟩
  | running p => rw [exec_of_running i s p hs] at h; cases h; exact .inr ⟨busy_of_running hs, rfl⟩

/-- Settles O17: every kind of step, and both outcomes of an operation, keep the two fields. -/
theorem nothingChangesTheInitSequences : Obligations.NothingChangesTheInitSequences := by
  refine ⟨fun s t h => step_initSeqs h, fun i s t h => ?_⟩
  obtain ⟨_, rfl⟩ | ⟨_, rfl⟩ := exec_cases h
  · exact ⟨rfl, rfl⟩
  · exact ⟨raiseFault_initSeq4 .., raiseFault_initSeq8 ..⟩

/-! ### The event of a turn -/

/-- Nothing happened to the trace and the pins, or one event of a running operation did. -/
def AtMostOneEvent (s t : State) : Prop :=
  (t.trace = s.trace ∧ t.pins = s.pins) ∨
  (∃ e, s.busy = true ∧ t.trace = s.trace ++ [e] ∧ t.pins = s.pins.afterEvent e)

theorem engineTurn_atMostOneEvent (s : State) : AtMostOneEvent s s.engineTurn := by
  obtain ⟨_, h⟩ | ⟨p, _, _, h⟩ | ⟨p, a, rest, hp, _, h⟩ := engineTurn_cases s <;> rw [h]
  · exact .inl ⟨rfl, rfl⟩
  · exact .inl ⟨resume_trace s p, resume_pins s p⟩
  · exact .inr ⟨_, busy_of_running hp, perform_trace .., perform_pins ..⟩

/-- Settles O19: only the engine's turns perform events. -/
theorem eachStepPerformsAtMostOneEvent : Obligations.EachStepPerformsAtMostOneEvent := by
  intro s t h
  obtain ⟨_, rfl⟩ | ⟨rest, _, rfl⟩ | ⟨_, _, _, _, _, rfl⟩ | ⟨_, _, _, _, rfl⟩ | ⟨_, _, _, _, _, rfl⟩ |
    ⟨_, _, _, _, _, _, rfl⟩ | ⟨_, _, rfl⟩ := step_cases h
  · exact engineTurn_atMostOneEvent s
  · exact engineTurn_atMostOneEvent { s with agenda := rest }
  all_goals exact .inl ⟨rfl, rfl⟩

/-- A step is the engine's when the agenda is empty or lists its turn next. -/
theorem step_of_engine_next {s : State} (h : s.agenda = [] ∨ s.agenda.head? = some .engine) :
    step s = .next { s with agenda := s.agenda.tail }.engineTurn := by
  cases ha : s.agenda with
  | nil => rw [step_of_empty_agenda ha, List.tail_nil, ← ha]
  | cons x rest =>
    obtain rfl : x = .engine := by simpa [ha] using h
    simp [step, takeTurn, ha]

theorem engineTurn_of_running {s : State} {p : Progress} {a : Action} {rest : List Action} (hs : s.seq = .running p)
    (ht : p.todo = a :: rest) : s.engineTurn = s.perform a { p with todo := rest } := by
  simp [State.engineTurn, hs, ht]

theorem engineTurn_of_idle {s : State} (hs : s.seq = .idle) : s.engineTurn = s := by
  simp [State.engineTurn, hs]

/-- What is left to perform after an event is what the new position says, also at the end of the operation. -/
@[simp] theorem resume_todo (s : State) (p : Progress) : (s.resume p).todo = p.todo := by
  by_cases h : p.todo = []
  · simp [resume_of_nil s p h, State.todo, h]
  · simp [resume_of_ne_nil s p h, State.todo]

/-- An action that reads nothing leaves the rest of the sequence, and the agents' answers as they were. -/
theorem perform_rest_of_not_reads {a : Action} (p : Progress) (s : State) (h : a.reads = false) :
    (s.perform a p).todo = p.todo ∧ (s.perform a p).draws = s.draws ∧ (s.perform a p).drawCount = s.drawCount := by
  simp [perform_of_not_reads a p s .low h]

/-- A running engine at a position has an action to perform. -/
theorem exists_action_of_positionOk {s : State} (hs : s.positionOk) (hb : s.busy = true) :
    ∃ p a rest, s.seq = .running p ∧ p.todo = a :: rest := by
  obtain ⟨p, hp⟩ := (busy_iff s).mp hb
  obtain ⟨_, _, ⟨hne, _⟩, _⟩ := hs p hp
  obtain ⟨a, rest, ht⟩ := List.exists_cons_of_ne_nil hne
  exact ⟨p, a, rest, hp, ht⟩

/-- Settles O20: the turn is `perform` of the first action, whose rules name each field. -/
theorem engineTurnPerformsTheNextEvent : Obligations.EngineTurnPerformsTheNextEvent := by
  intro s hpos hturn
  have hstep := step_of_engine_next hturn
  refine ⟨fun p a rest hp ht => ?_, exists_action_of_positionOk hpos, fun hi => ?_⟩
  · rw [engineTurn_of_running (s := { s with agenda := s.agenda.tail }) hp ht] at hstep
    obtain ⟨hill, hovr, hmode, hag, hrep⟩ :=
      perform_frame a { p with todo := rest } { s with agenda := s.agenda.tail }
    exact ⟨_, hstep, perform_trace .., perform_pins .., perform_rest_of_not_reads _ _, hag, hrep, hill, hovr, hmode⟩
  · rw [hstep, engineTurn_of_idle (s := { s with agenda := s.agenda.tail }) hi]

/-! ### The host's reads -/

/-- The same block with another agenda and other replies: the part of the state that is the host's. -/
def State.withHost (s : State) (turns : List Turn) (replies : List Reply) : State :=
  { s with agenda := turns, replies := replies }

theorem dropDraw_withHost (s : State) (turns : List Turn) (replies : List Reply) :
    (s.withHost turns replies).dropDraw = s.dropDraw.withHost turns replies := by
  cases hd : s.draws <;> simp [State.dropDraw, State.withHost, hd]

theorem resume_withHost (s : State) (p : Progress) (turns : List Turn) (replies : List Reply) :
    (s.withHost turns replies).resume p = (s.resume p).withHost turns replies := by
  by_cases h : p.todo = []
  · simp [resume_of_nil _ p h, State.withHost]
  · simp [resume_of_ne_nil _ p h, State.withHost]

theorem perform_withHost (a : Action) (p : Progress) (s : State) (turns : List Turn) (replies : List Reply) :
    (s.withHost turns replies).perform a p = (s.perform a p).withHost turns replies := by
  cases h : a.reads
  · rw [perform_of_not_reads a p _ .low h, perform_of_not_reads a p s .low h, ← resume_withHost]; rfl
  · rw [perform_of_reads a p _ h, perform_of_reads a p s h, ← resume_withHost, dropDraw_withHost]; rfl

/-- The engine neither uses nor changes the host's part. -/
theorem engineTurn_withHost (s : State) (turns : List Turn) (replies : List Reply) :
    (s.withHost turns replies).engineTurn = s.engineTurn.withHost turns replies := by
  obtain ⟨hs, h⟩ | ⟨p, hs, ht, h⟩ | ⟨p, a, rest, hs, ht, h⟩ := engineTurn_cases s <;> rw [h]
  · exact engineTurn_of_idle hs
  · rw [← resume_withHost]; simp [State.engineTurn, State.withHost, hs, ht]
  · rw [engineTurn_of_running (s := s.withHost turns replies) hs ht, perform_withHost]

/-- An admitted read records its register's word (R41). -/
theorem step_of_read {s : State} {off : Nat} {v : Word} {rest : List Turn} (ha : s.agenda = .host (.read off 4) :: rest)
    (hv : s.readRegister off = some v) :
    step s = .next { s with agenda := rest, replies := s.replies ++ [⟨off, v⟩] } := by
  have hv' : State.readRegister { s with agenda := rest } off = some v := hv
  simp [step, takeTurn, ha, hostAccess, hv']

theorem step_withHost_engine (s : State) (rest : List Turn) (replies : List Reply) :
    step (s.withHost (.engine :: rest) replies) = .next (s.engineTurn.withHost rest replies) := by
  rw [step_of_engine_next (.inr rfl), ← engineTurn_withHost]; rfl

theorem step_withHost_read (s : State) {x : Turn} (rest : List Turn) (replies : List Reply)
    (hx : x = .host (.read 0x04 4) ∨ x = .host (.read 0x08 4) ∨ x = .host (.read 0x0C 4)) :
    ∃ replies', step (s.withHost (x :: rest) replies) = .next (s.withHost rest replies') := by
  obtain rfl | rfl | rfl := hx <;> exact ⟨_, step_of_read rfl rfl⟩

/-- Turns of the engine among admitted reads: the engine's turns alone, and some replies. -/
theorem runs_withHost (s : State) (turns : List Turn) (replies : List Reply)
    (hx : ∀ x ∈ turns, x = .engine ∨ x = .host (.read 0x04 4) ∨ x = .host (.read 0x08 4) ∨ x = .host (.read 0x0C 4)) :
    ∃ replies', runs turns.length (s.withHost turns replies) =
      .next ((State.engineTurn^[turns.count .engine] s).withHost [] replies') := by
  induction turns generalizing s replies with
  | nil => exact ⟨replies, rfl⟩
  | cons x rest ih =>
    obtain ⟨hhead, htail⟩ := List.forall_mem_cons.mp hx
    rw [List.length_cons]
    obtain rfl | hread := hhead
    · rw [runs_succ_of_step _ (step_withHost_engine s rest replies), List.count_cons_self, Function.iterate_succ_apply]
      exact ih _ _ htail
    · obtain ⟨replies', hstep⟩ := step_withHost_read s rest replies hread
      have hne : x ≠ .engine := by rintro rfl; simp at hread
      rw [runs_succ_of_step _ hstep, List.count_cons_of_ne hne]
      exact ih _ _ htail

/-- Settles O54, by induction on the turns: a read changes only the host's part, which no engine turn uses. -/
theorem hostReadsNeverDisturbTheEngine : Obligations.HostReadsNeverDisturbTheEngine := by
  intro s turns hx
  obtain ⟨replies', h⟩ := runs_withHost s turns s.replies hx
  exact ⟨_, h, rfl, rfl, rfl, rfl, rfl, rfl, rfl, rfl, rfl, rfl, rfl, rfl⟩

end Sys2Proof.Machine
end

section
/-! The whole run of each LCD operation from an idle engine, with its trace, and the least durations of those runs. -/

namespace Sys2Proof.Machine

/-! ### Whole runs -/

/-- The engine accepts the operation, performs exactly `tr`, one event a step, and is then as it was but for the pins,
the trace and the answers, of which `ds` are left. -/
def Performs (i : Instr) (s : State) (tr : List Event) (ds : List Level) : Prop :=
  ∃ p, exec i s = .next { s with seq := .running p } ∧ RunsTo { s with seq := .running p } tr (s.moved tr ds)

/-- An operation that leaves RESULT.KEY alone performs what its sequence does. -/
theorem Performs.of_goes {i : Instr} {s : State} {tr : List Event} {ds : List Level} {smp : Option Level}
    (hs : s.seq = .idle) (hans : answerOf i = none)
    (h : Goes s ⟨encode i, scriptOf s.mode s.initSeq i, none, none⟩ tr ds ⟨encode i, [], smp, none⟩) :
    Performs i s tr ds :=
  ⟨_, exec_of_idle i s hs, by rw [hans]; exact runsTo_of_goes hs h⟩

theorem Performs.runsWith {i : Instr} {s : State} {tr : List Event} {ds : List Level} {P : List Event → Prop}
    (h : Performs i s tr ds) (hs : s.seq = .idle) (hP : P tr) : RunsWith i s P :=
  RunsWith.of_run h hs rfl rfl hP

/-- A frame and then a busy poll (R74, R75). -/
theorem goes_frame_busyPoll (s : State) (ha : s.agenda = []) (m : Mode) (rs : Level) (b : Byte) (w : Word)
    (rest : List Action) (smp : Option Level) (ans : Option Byte) (n : Nat) (ds : List Level)
    (hd : s.draws = pollDraws n ++ ds) :
    Goes s ⟨w, (frame m rs b ++ busyPoll m) ++ rest, smp, ans⟩ (frameTrace m rs b ++ pollTrace m n) ds
      ⟨w, rest, some .low, ans⟩ := by
  rw [List.append_assoc]
  exact (goes_frame s ha m rs b w _ smp ans).append (by simp [busyPoll])
    (goes_busyPoll (s.moved _ _) ha m w rest smp ans n ds hd)

theorem cmdToChip_events (m : Mode) (code : Byte) (chip : BitVec 2) :
    (cmdToChipScript m code chip).map (Action.event · .low) = chipTrace m code chip := by
  have hsel : (csSelect chip).map (Action.event · .low) = selectTrace chip := by
    unfold csSelect selectTrace chipCs1 chipCs2
    split
    · rfl
    · split <;> rfl
  have hrel : csRelease.map (Action.event · .low) = [.w .cs1 .low, .w .cs2 .low] := rfl
  rw [cmdToChipScript, List.map_append, List.map_append, hsel, hrel, frame_events, chipTrace]

theorem cmdToChip_reads_nothing (m : Mode) (code : Byte) (chip : BitVec 2) :
    ∀ a ∈ cmdToChipScript m code chip, a.reads = false := by
  have hsel : ∀ a ∈ csSelect chip, a.reads = false := by
    unfold csSelect
    split
    · simp [Action.reads]
    · split <;> simp [Action.reads]
  have hrel : ∀ a ∈ csRelease, a.reads = false := by simp [csRelease, Action.reads]
  intro a hmem
  rw [cmdToChipScript, List.mem_append, List.mem_append] at hmem
  obtain (h | h) | h := hmem
  · exact hsel a h
  · exact frame_reads_nothing m .low code a h
  · exact hrel a h

/-- Select, command frame, release (R84). -/
theorem goes_cmdToChip (s : State) (ha : s.agenda = []) (m : Mode) (code : Byte) (chip : BitVec 2) (w : Word)
    (rest : List Action) (smp : Option Level) (ans : Option Byte) :
    Goes s ⟨w, cmdToChipScript m code chip ++ rest, smp, ans⟩ (chipTrace m code chip) s.draws ⟨w, rest, smp, ans⟩ :=
  goes_stretch s ha w _ rest smp ans (cmdToChip_reads_nothing m code chip) (by simp [cmdToChipScript, frame]) _
    (cmdToChip_events m code chip)

/-- INIT's command frames in FOUR_BIT, each with its poll of `ones` samples of 1 (R77). -/
def polledFrames (codes : List Byte) (ones : List Nat) : List Event :=
  (codes.zip ones).flatMap fun x => frameTrace .fourBit .low x.1 ++ pollTrace .fourBit x.2

/-- A run that stands before polled command frames goes on through all of them to the end of the operation. -/
theorem Goes.through_polledFrames {s : State} (ha : s.agenda = []) {p : Progress} {w : Word} {ans : Option Byte}
    {codes : List Byte} {ones : List Nat} {rest : List Level} (hl : ones.length = codes.length) {a : List Event}
    {smp : Option Level}
    (h : Goes s p a (ones.flatMap pollDraws ++ rest) ⟨w, codes.flatMap (sendCmdScript .fourBit), smp, ans⟩) :
    ∃ smp', Goes s p (a ++ polledFrames codes ones) rest ⟨w, [], smp', ans⟩ := by
  induction codes generalizing ones a smp with
  | nil =>
    obtain rfl := List.eq_nil_of_length_eq_zero hl
    exact ⟨smp, by simpa [polledFrames] using h⟩
  | cons c cs ih =>
    obtain ⟨n, ns, rfl⟩ := List.exists_cons_of_length_eq_add_one hl
    have hfirst := goes_frame_busyPoll (s.moved a ((n :: ns).flatMap pollDraws ++ rest)) ha .fourBit .low c w
      (cs.flatMap (sendCmdScript .fourBit)) smp ans n (ns.flatMap pollDraws ++ rest) (by simp)
    obtain ⟨smp', hall⟩ := ih (by simpa using hl) (h.append (by simp [sendCmdScript, frame]) hfirst)
    exact ⟨smp', by simpa [polledFrames] using hall⟩

section
variable {s : State} (hs : s.seq = .idle) (ha : s.agenda = [])
include hs ha

theorem performs_sendCmd_eightBit (hm : s.mode = .eightBit) (code : Byte) :
    Performs (.sendCmd code) s (frameTrace .eightBit .low code) s.draws := by
  refine Performs.of_goes hs rfl (smp := none) ?_
  rw [hm]
  simpa [scriptOf, sendCmdScript] using goes_frame s ha .eightBit .low code _ [] none none

theorem performs_sendCmd_fourBit (hm : s.mode = .fourBit) (code : Byte) {n : Nat} {rest : List Level}
    (hd : s.draws = pollDraws n ++ rest) :
    Performs (.sendCmd code) s (frameTrace .fourBit .low code ++ pollTrace .fourBit n) rest := by
  refine Performs.of_goes hs rfl (smp := some .low) ?_
  rw [hm]
  simpa [scriptOf, sendCmdScript] using goes_frame_busyPoll s ha .fourBit .low code _ [] none none n rest hd

theorem performs_printChar (ch : Byte) {n : Nat} {rest : List Level} (hd : s.draws = pollDraws n ++ rest) :
    Performs (.printChar ch) s (frameTrace s.mode .high ch ++ pollTrace s.mode n) rest := by
  refine Performs.of_goes hs rfl (smp := some .low) ?_
  simpa [scriptOf, printCharScript] using goes_frame_busyPoll s ha s.mode .high ch _ [] none none n rest hd

theorem performs_clear {n : Nat} {rest : List Level} (hd : s.draws = pollDraws n ++ rest) :
    Performs .clear s (frameTrace s.mode .low clearByte ++ pollTrace s.mode n) rest := by
  refine Performs.of_goes hs rfl (smp := some .low) ?_
  simpa [scriptOf, clearScript] using goes_frame_busyPoll s ha s.mode .low clearByte _ [] none none n rest hd

theorem performs_waitBusy {n : Nat} {rest : List Level} (hd : s.draws = pollDraws n ++ rest) :
    Performs .waitBusy s (pollTrace s.mode n) rest := by
  refine Performs.of_goes hs rfl (smp := some .low) ?_
  simpa [scriptOf, waitBusyScript] using goes_busyPoll s ha s.mode _ [] none none n rest hd

theorem performs_cmdToChip (code : Byte) (chip : BitVec 2) :
    Performs (.cmdToChip code chip) s (chipTrace s.mode code chip) s.draws := by
  refine Performs.of_goes hs rfl (smp := none) ?_
  simpa [scriptOf] using goes_cmdToChip s ha s.mode code chip _ [] none none

theorem performs_setCursor (page column : Byte) (chip : BitVec 2) :
    Performs (.setCursor page column chip) s
      (chipTrace s.mode (setPageByte page) chip ++ chipTrace s.mode (setColumnByte column) chip) s.draws := by
  refine Performs.of_goes hs rfl (smp := none) ?_
  have hpage := goes_cmdToChip s ha s.mode (setPageByte page) chip (encode (.setCursor page column chip))
    (cmdToChipScript s.mode (setColumnByte column) chip) none none
  have hcolumn := goes_cmdToChip (s.moved (chipTrace s.mode (setPageByte page) chip) s.draws) ha s.mode
    (setColumnByte column) chip (encode (.setCursor page column chip)) [] none none
  rw [List.append_nil] at hcolumn
  exact hpage.append (by simp [cmdToChipScript, frame]) hcolumn

/-- In EIGHT_BIT, INIT is one stretch without a read (R77). -/
theorem performs_init_eightBit (hm : s.mode = .eightBit) :
    Performs .init s (.dly .powerUp :: s.initSeq8.flatMap (frameTrace .eightBit .low)) s.draws := by
  refine Performs.of_goes hs rfl (smp := none) ?_
  have hseq : s.initSeq = s.initSeq8 := by simp [State.initSeq, hm]
  have hreads : ∀ a ∈ initScript .eightBit s.initSeq8, a.reads = false := by
    intro a hmem
    obtain rfl | hmem := List.mem_cons.mp hmem
    · rfl
    · obtain ⟨c, _, hc⟩ := List.mem_flatMap.mp hmem
      exact frame_reads_nothing .eightBit .low c a hc
  have hevents : (initScript .eightBit s.initSeq8).map (Action.event · .low) =
      .dly .powerUp :: s.initSeq8.flatMap (frameTrace .eightBit .low) := by
    rw [initScript, List.map_cons, List.map_flatMap]
    exact congrArg₂ List.cons rfl (congrArg (s.initSeq8.flatMap ·) (funext fun c => frame_events .eightBit .low c))
  have hgoes := goes_stretch s ha (encode .init) _ [] none none hreads (by simp [initScript]) _ hevents
  rw [List.append_nil] at hgoes
  rw [hm, hseq]
  exact hgoes

theorem performs_init_fourBit (hm : s.mode = .fourBit) {ones : List Nat} {rest : List Level}
    (hl : ones.length = s.initSeq4.length) (hd : s.draws = ones.flatMap pollDraws ++ rest) :
    Performs .init s (.dly .powerUp :: polledFrames s.initSeq4 ones) rest := by
  have hseq : s.initSeq = s.initSeq4 := by simp [State.initSeq, hm]
  have hdelay := goes_plain s ha (encode .init) [.delay .powerUp] (s.initSeq4.flatMap (sendCmdScript .fourBit))
    none none (by simp [Action.reads]) (by simp)
  rw [hd] at hdelay
  obtain ⟨smp, hall⟩ := Goes.through_polledFrames ha hl hdelay
  refine Performs.of_goes hs rfl (smp := smp) ?_
  rw [hm, hseq]
  exact hall

end

/-- Settles O30: `Performs` written out, with INIT's trace in each mode. -/
theorem initPerformsItsCommandSequence : Obligations.InitPerformsItsCommandSequence :=
  ⟨fun _ hs ha hm => performs_init_eightBit hs ha hm,
    fun _ _ _ hs ha hm hl hd => performs_init_fourBit hs ha hm hl hd, rfl, rfl⟩

/-! ### Least durations -/

/-- The enable pulses of one transfer: two nibbles in FOUR_BIT (R73). -/
def pulsesPerFrame : Mode → Nat
  | .fourBit => 2
  | .eightBit => 1

@[simp] theorem minDuration_frameTrace (m : Mode) (rs : Level) (b : Byte) :
    minDuration (frameTrace m rs b) = 2 * pulsesPerFrame m * duration .en := by
  cases m <;> simp [frameTrace, transferTrace, pulseTrace, minDuration, pulsesPerFrame] <;> omega

@[simp] theorem minDuration_chipTrace (m : Mode) (code : Byte) (chip : BitVec 2) :
    minDuration (chipTrace m code chip) = 2 * pulsesPerFrame m * duration .en := by
  have hsel : minDuration (selectTrace chip) = 0 := by
    unfold selectTrace
    split
    · rfl
    · split <;> rfl
  simp [chipTrace, minDuration_append, hsel, minDuration]

@[simp] theorem minDuration_sampleTrace (samples : List Level) :
    minDuration (sampleTrace samples) = 2 * samples.length * duration .en := by
  induction samples with
  | nil => simp [sampleTrace, minDuration]
  | cons l ls ih =>
    have hcons : sampleTrace (l :: ls) = (pulseTrace ++ [.r .d7 l]) ++ sampleTrace ls := rfl
    rw [hcons, minDuration_append, ih, List.length_cons]
    simp only [pulseTrace, List.cons_append, List.nil_append, minDuration]
    ring

@[simp] theorem minDuration_pollTrace (m : Mode) (n : Nat) :
    minDuration (pollTrace m n) = 2 * (n + 1) * duration .en := by
  have hturn : ∀ d, minDuration (turnTrace m d) = 0 := by cases m <;> exact fun _ => rfl
  simp [pollTrace, minDuration_append, hturn, pollDraws, minDuration]

theorem minDuration_eightBit_frames (codes : List Byte) :
    minDuration (codes.flatMap (frameTrace .eightBit .low)) = 2 * codes.length * duration .en := by
  induction codes with
  | nil => simp [minDuration]
  | cons c cs ih =>
    rw [List.flatMap_cons, minDuration_append, ih, minDuration_frameTrace, List.length_cons, pulsesPerFrame]
    ring

theorem minDuration_polledFrames {codes : List Byte} {ones : List Nat} (hl : ones.length = codes.length) :
    minDuration (polledFrames codes ones) = (ones.map fun n => (4 + 2 * (n + 1)) * duration .en).sum := by
  induction codes generalizing ones with
  | nil =>
    obtain rfl := List.eq_nil_of_length_eq_zero hl
    rfl
  | cons c cs ih =>
    obtain ⟨n, ns, rfl⟩ := List.exists_cons_of_length_eq_add_one hl
    have hcons : polledFrames (c :: cs) (n :: ns) =
        (frameTrace .fourBit .low c ++ pollTrace .fourBit n) ++ polledFrames cs ns := rfl
    rw [hcons, minDuration_append, minDuration_append, ih (by simpa using hl), minDuration_frameTrace,
      minDuration_pollTrace, pulsesPerFrame, List.map_cons, List.sum_cons]
    ring

/-- Each poll samples at least once, so a polled frame holds at least three pulses, of two delays each (R70, R124). -/
theorem length_mul_le_sum_polled (ones : List Nat) (t : Nat) :
    ones.length * (6 * t) ≤ (ones.map fun n => (4 + 2 * (n + 1)) * t).sum := by
  have h := List.card_nsmul_le_sum (ones.map fun n => (4 + 2 * (n + 1)) * t) (6 * t) (by
    simp only [List.mem_map, forall_exists_index, and_imp, forall_apply_eq_imp_iff₂]
    exact fun n _ => Nat.mul_le_mul_right t (by omega))
  simpa using h

theorem minDuration_init_eightBit (codes : List Byte) :
    minDuration (.dly .powerUp :: codes.flatMap (frameTrace .eightBit .low)) =
      duration .powerUp + 2 * codes.length * duration .en := by
  rw [minDuration, minDuration_eightBit_frames]

theorem minDuration_init_fourBit {codes : List Byte} {ones : List Nat} (hl : ones.length = codes.length) :
    minDuration (.dly .powerUp :: polledFrames codes ones) =
      duration .powerUp + (ones.map fun n => (4 + 2 * (n + 1)) * duration .en).sum := by
  rw [minDuration, minDuration_polledFrames hl]

section
variable {s : State} (hs : s.seq = .idle) (ha : s.agenda = [])
include hs ha

/-- In both modes a busy poll takes the same, and a frame its pulses. -/
theorem polled_operations_durations {k : Nat} (hk : pulsesPerFrame s.mode = k) {n : Nat} {rest : List Level}
    (hd : s.draws = pollDraws n ++ rest) :
    (∀ ch : Byte, RunsWith (.printChar ch) s fun tr => minDuration tr = (2 * k + 2 * (n + 1)) * duration .en) ∧
    RunsWith .clear s (fun tr => minDuration tr = (2 * k + 2 * (n + 1)) * duration .en) ∧
    RunsWith .waitBusy s (fun tr => minDuration tr = 2 * (n + 1) * duration .en) := by
  have hsum : ∀ rs b, minDuration (frameTrace s.mode rs b ++ pollTrace s.mode n) =
      (2 * k + 2 * (n + 1)) * duration .en := fun rs b => by
    rw [minDuration_append, minDuration_frameTrace, minDuration_pollTrace, hk, Nat.add_mul]
  exact ⟨fun ch => (performs_printChar hs ha ch hd).runsWith hs (hsum ..),
    (performs_clear hs ha hd).runsWith hs (hsum ..),
    (performs_waitBusy hs ha hd).runsWith hs (minDuration_pollTrace ..)⟩

theorem cmdToChip_duration {k : Nat} (hk : pulsesPerFrame s.mode = k) (code : Byte) (chip : BitVec 2) :
    RunsWith (.cmdToChip code chip) s fun tr => minDuration tr = 2 * k * duration .en :=
  (performs_cmdToChip hs ha code chip).runsWith hs (hk ▸ minDuration_chipTrace ..)

theorem setCursor_duration {k : Nat} (hk : pulsesPerFrame s.mode = k) (page column : Byte) (chip : BitVec 2) :
    RunsWith (.setCursor page column chip) s fun tr => minDuration tr = 4 * k * duration .en := by
  refine (performs_setCursor hs ha page column chip).runsWith hs ?_
  rw [minDuration_append, minDuration_chipTrace, minDuration_chipTrace, hk]; ring

theorem sendCmd_duration_fourBit (hm : s.mode = .fourBit) (code : Byte) {n : Nat} {rest : List Level}
    (hd : s.draws = pollDraws n ++ rest) :
    RunsWith (.sendCmd code) s fun tr => minDuration tr = (4 + 2 * (n + 1)) * duration .en := by
  refine (performs_sendCmd_fourBit hs ha hm code hd).runsWith hs ?_
  rw [minDuration_append, minDuration_frameTrace, minDuration_pollTrace, pulsesPerFrame]; ring

theorem init_duration_eightBit (hm : s.mode = .eightBit) :
    RunsWith .init s fun tr => minDuration tr = duration .powerUp + 2 * s.initSeq8.length * duration .en ∧
      (s.initSeq8.length = 5 → minDuration tr = duration .powerUp + 10 * duration .en) := by
  refine (performs_init_eightBit hs ha hm).runsWith hs ?_
  rw [minDuration_init_eightBit]
  exact ⟨rfl, fun h5 => by rw [h5]⟩

theorem init_duration_fourBit (hm : s.mode = .fourBit) {ones : List Nat} {rest : List Level}
    (hl : ones.length = s.initSeq4.length) (hd : s.draws = ones.flatMap pollDraws ++ rest) :
    RunsWith .init s fun tr =>
      minDuration tr = duration .powerUp + (ones.map fun n => (4 + 2 * (n + 1)) * duration .en).sum ∧
      (s.initSeq4.length = 6 → duration .powerUp + 36 * duration .en ≤ minDuration tr) := by
  refine (performs_init_fourBit hs ha hm hl hd).runsWith hs ?_
  rw [minDuration_init_fourBit hl]
  refine ⟨rfl, fun h6 => ?_⟩
  have hsum := length_mul_le_sum_polled ones (duration .en)
  rw [hl, h6] at hsum
  omega

end

/-- Settles O48: the run of each operation has the trace `Performs` names, whose delays are its pulses' and INIT's
power-up delay. -/
theorem operationsTakeAtLeastTheirDelays : Obligations.OperationsTakeAtLeastTheirDelays := by
  refine ⟨fun s hs ha hm => ?_, fun s hs ha hm => ?_, Nat.le_add_right .., Nat.le_add_right ..⟩
  · have hk : pulsesPerFrame s.mode = 1 := by rw [hm]; rfl
    exact ⟨fun code => (performs_sendCmd_eightBit hs ha hm code).runsWith hs (minDuration_frameTrace ..),
      fun _ _ hd => polled_operations_durations hs ha hk hd, cmdToChip_duration hs ha hk, setCursor_duration hs ha hk,
      init_duration_eightBit hs ha hm⟩
  · have hk : pulsesPerFrame s.mode = 2 := by rw [hm]; rfl
    exact ⟨fun _ _ hd =>
        ⟨fun code => sendCmd_duration_fourBit hs ha hm code hd, polled_operations_durations hs ha hk hd⟩,
      cmdToChip_duration hs ha hk, setCursor_duration hs ha hk, fun _ _ hl hd => init_duration_fourBit hs ha hm hl hd⟩

end Sys2Proof.Machine
end

section
/-! The decoder gives back the operation of an encoded word: the sequencer's accepted word stands for its operation. -/

namespace Sys2Proof

/-- The operand fields of a word put together from its fields (R54). -/
theorem fields_assembleFields (op : BitVec 4) (chip : BitVec 2) (column arg : Byte) :
    argField (assembleFields op chip column arg) = arg ∧ columnField (assembleFields op chip column arg) = column ∧
      chipField (assembleFields op chip column arg) = chip := by
  unfold argField columnField chipField assembleFields
  refine ⟨BitVec.extractLsb'_append_eq_right, ?_, ?_⟩
  · rw [BitVec.extractLsb'_append_eq_of_le (by omega)]
    exact BitVec.extractLsb'_append_eq_right
  · rw [BitVec.extractLsb'_append_eq_of_le (by omega), BitVec.extractLsb'_append_eq_of_le (by omega)]
    exact BitVec.extractLsb'_append_eq_right

/-- A mask that keeps OP and RES cuts the other fields one by one. -/
theorem and_assembleFields (op : BitVec 4) (chip cm : BitVec 2) (column lm arg am : Byte) :
    assembleFields op chip column arg &&& (0xF#4 ++ 0x3FF#10 ++ cm ++ lm ++ am) =
      assembleFields op (chip &&& cm) (column &&& lm) (arg &&& am) := by
  have hop : op &&& 0xF#4 = op := BitVec.and_allOnes
  have hand : (op ++ 0#10 ++ chip ++ column ++ arg) &&& (0xF#4 ++ 0x3FF#10 ++ cm ++ lm ++ am) =
      op ++ 0#10 ++ (chip &&& cm) ++ (column &&& lm) ++ (arg &&& am) := by
    simp only [BitVec.and_append, hop, BitVec.zero_and]
  exact hand

/-- A row whose pattern has another OP does not match. -/
theorem not_matches_of_op_ne {r : OpRow} {op : BitVec 4} (chip : BitVec 2) (column arg : Byte)
    (hmask : r.mask.extractLsb' 28 4 = 0xF#4) (hne : r.pattern.extractLsb' 28 4 ≠ op) :
    r.matches (assembleFields op chip column arg) = false := by
  have hop : (assembleFields op chip column arg).extractLsb' 28 4 = op := (Laws.OpField.of_fields op chip column arg).1
  refine beq_eq_false_iff_ne.mpr fun h => hne ?_
  rw [← h, BitVec.extractLsb'_and, hop, hmask]
  exact BitVec.and_allOnes

/-- A row matches the words of its OP whose masked fields are zero (R55, R56). -/
theorem matches_of_masked_zero {r : OpRow} {op : BitVec 4} {chip cm : BitVec 2} {column lm arg am : Byte}
    (hmask : r.mask = 0xF#4 ++ 0x3FF#10 ++ cm ++ lm ++ am) (hpat : r.pattern = assembleFields op 0 0 0)
    (hchip : chip &&& cm = 0) (hcolumn : column &&& lm = 0) (harg : arg &&& am = 0) :
    r.matches (assembleFields op chip column arg) = true := by
  rw [OpRow.matches, hmask, hpat, and_assembleFields, hchip, hcolumn, harg]
  exact beq_self_eq_true _

/-- Of the eight rows only the operation's own matches its word, and it reads the operands back (R55, R57). -/
theorem decode_encode (i : Instr) : decode (encode i) = some i := by
  have fields := fields_assembleFields
  cases i with
  | init => rfl
  | sendCmd code =>
    have hrow := matches_of_masked_zero (r := ⟨0xFFFFFF00#32, 0x20000000#32, fun w => .sendCmd (argField w)⟩)
      (op := 2#4) (chip := 0#2) (cm := 3) (column := 0#8) (lm := 255) (arg := code) (am := 0)
      rfl rfl rfl rfl BitVec.and_zero
    simp [encode, decode, opRows, Instr.op, not_matches_of_op_ne, fields, hrow]
  | printChar ch =>
    have hrow := matches_of_masked_zero (r := ⟨0xFFFFFF00#32, 0x30000000#32, fun w => .printChar (argField w)⟩)
      (op := 3#4) (chip := 0#2) (cm := 3) (column := 0#8) (lm := 255) (arg := ch) (am := 0)
      rfl rfl rfl rfl BitVec.and_zero
    simp [encode, decode, opRows, Instr.op, not_matches_of_op_ne, fields, hrow]
  | clear => rfl
  | setCursor page column chip =>
    have hrow := matches_of_masked_zero
      (r := ⟨0xFFFC0000#32, 0x50000000#32, fun w => .setCursor (argField w) (columnField w) (chipField w)⟩)
      (op := 5#4) (chip := chip) (cm := 0) (column := column) (lm := 0) (arg := page) (am := 0) rfl rfl
      BitVec.and_zero BitVec.and_zero BitVec.and_zero
    simp [encode, decode, opRows, Instr.op, not_matches_of_op_ne, fields, hrow]
  | cmdToChip code chip =>
    have hrow := matches_of_masked_zero
      (r := ⟨0xFFFCFF00#32, 0x60000000#32, fun w => .cmdToChip (argField w) (chipField w)⟩)
      (op := 6#4) (chip := chip) (cm := 0) (column := 0#8) (lm := 255) (arg := code) (am := 0) rfl rfl
      BitVec.and_zero rfl BitVec.and_zero
    simp [encode, decode, opRows, Instr.op, not_matches_of_op_ne, fields, hrow]
  | waitBusy => rfl
  | scanKey => rfl

end Sys2Proof
end

section
/-! The statements of 10_state.md about the registers, the fault bits, MODE, acceptance and reset. -/

namespace Sys2Proof.Machine

/-! ### The register words -/

theorem resultWord_key (s : State) : s.resultWord.extractLsb' 0 8 = s.key := BitVec.extractLsb'_append_eq_right

theorem getLsbD_append_bit_zero {n : Nat} (x : BitVec n) (b : Bool) : (x ++ bit b).getLsbD 0 = b := by
  simp [bit, BitVec.getElem_append]

theorem getLsbD_append_bit_succ {n : Nat} (x : BitVec n) (b : Bool) (k : Nat) :
    (x ++ bit b).getLsbD (k + 1) = x.getLsbD k := by
  simp [BitVec.getLsbD_append]

theorem statusWord_busy (s : State) : s.statusWord.getLsbD 0 = s.busy := getLsbD_append_bit_zero ..

theorem statusWord_faultIllegal (s : State) : s.statusWord.getLsbD 1 = s.faultIllegal :=
  (getLsbD_append_bit_succ ..).trans (getLsbD_append_bit_zero ..)

theorem statusWord_faultOverrun (s : State) : s.statusWord.getLsbD 2 = s.faultOverrun :=
  (getLsbD_append_bit_succ ..).trans ((getLsbD_append_bit_succ ..).trans (getLsbD_append_bit_zero ..))

theorem statusWord_reserved (s : State) : s.statusWord.extractLsb' 3 29 = 0#29 := by
  unfold State.statusWord
  rw [BitVec.extractLsb'_append_eq_of_le (by omega), BitVec.extractLsb'_append_eq_of_le (by omega)]
  exact BitVec.extractLsb'_append_eq_left

theorem configWord_mode (s : State) : s.configWord.getLsbD 0 = modeBit s.mode := getLsbD_append_bit_zero ..

theorem modeBit_iff (m : Mode) : modeBit m = true ↔ m = .fourBit := by cases m <;> decide

theorem busy_iff_ne_idle (s : State) : s.busy = true ↔ s.seq ≠ .idle := by
  cases hs : s.seq <;> simp [State.busy, hs]

/-- Settles O13: each word is the concatenation of its fields. -/
theorem registerWordsHoldTheirFields : Obligations.RegisterWordsHoldTheirFields := fun s =>
  ⟨by rw [statusWord_busy, busy_iff_ne_idle], statusWord_faultIllegal s, statusWord_faultOverrun s,
    statusWord_reserved s, resultWord_key s, BitVec.extractLsb'_append_eq_left,
    by rw [configWord_mode, modeBit_iff], BitVec.extractLsb'_append_eq_left⟩

/-! ### Reset -/

/-- STATUS of an idle engine without a fault (R18 to R21). -/
theorem statusWord_of_idle {s : State} (hs : s.seq = .idle) (hill : s.faultIllegal = false)
    (hovr : s.faultOverrun = false) : s.statusWord = 0#32 := by
  rw [State.statusWord, busy_of_idle hs, hill, hovr]; rfl

theorem resultWord_of_noKey {s : State} (hk : s.key = 0x00#8) : s.resultWord = 0#32 := by
  rw [State.resultWord, hk]; rfl

theorem configWord_eq_one_iff (s : State) : s.configWord = 1#32 ↔ s.mode = .fourBit := by
  rw [State.configWord]
  cases s.mode <;> decide

theorem configWord_eq_zero_iff (s : State) : s.configWord = 0#32 ↔ s.mode = .eightBit := by
  rw [State.configWord]
  cases s.mode <;> decide

theorem step_of_reset {s : State} {rest : List Turn} (ha : s.agenda = .reset :: rest) :
    step s = .next (State.applyReset { s with agenda := rest }) := by
  simp [step, takeTurn, ha]

/-- Settles O11: the reset turn is `applyReset`, which names the four registers and nothing else. -/
theorem resetClearsTheInterfaceAndWritesNoPin : Obligations.ResetClearsTheInterfaceAndWritesNoPin := fun _ _ ha =>
  ⟨_, step_of_reset ha, rfl, statusWord_of_idle rfl rfl rfl, resultWord_of_noKey rfl, rfl⟩

/-- Bring-up leaves DA(MODE) outputs (R113). -/
theorem launched_reset : State.reset.launched := by
  intro i hi
  change i ∈ dataLines Config.mode at hi
  simp [State.reset, Pins.powerOn, hi]

/-- Settles O12: the reset state has the values of R36, and P-DIR its directions. -/
theorem powerOnResetLeavesAnIdleInterface : Obligations.PowerOnResetLeavesAnIdleInterface :=
  ⟨rfl, statusWord_of_idle rfl rfl rfl, resultWord_of_noKey rfl, rfl, configWord_eq_one_iff State.reset,
    configWord_eq_zero_iff State.reset, launched_reset⟩

theorem positionOk_of_idle {s : State} (h : s.seq = .idle) : s.positionOk := by
  intro p hp; rw [h] at hp; cases hp

/-- Settles O23: an idle engine is at no position, and is outside every poll. -/
theorem positionAndDirectionsHoldAtReset : Obligations.PositionAndDirectionsHoldAtReset :=
  ⟨positionOk_of_idle rfl, launched_reset⟩

/-! ### Acceptance and MODE -/

/-- Settles O7: an idle engine takes the operation's whole sequence, which is never empty. -/
theorem acceptedCommandChangesOnlyTheSequencer : Obligations.AcceptedCommandChangesOnlyTheSequencer := by
  refine fun i s => ⟨fun hs => ⟨_, exec_of_idle i s hs, rfl, scriptOf_ne_nil s.mode s.initSeq i⟩, fun hb => ?_⟩
  obtain ⟨p, hp⟩ := (busy_iff s).mp hb
  exact exec_of_running i s p hp

theorem step_mode {s t : State} (h : step s = .next t) : t.mode = s.mode := by
  obtain ⟨_, rfl⟩ | ⟨rest, _, rfl⟩ | ⟨_, _, _, _, _, rfl⟩ | ⟨_, _, _, _, rfl⟩ | ⟨_, _, _, _, _, rfl⟩ |
    ⟨_, _, _, _, _, _, rfl⟩ | ⟨_, _, rfl⟩ := step_cases h
  · obtain ⟨-, -, hmode, -, -⟩ := engineTurn_frame s
    exact hmode
  · obtain ⟨-, -, hmode, -, -⟩ := engineTurn_frame { s with agenda := rest }
    exact hmode
  all_goals rfl

/-- Settles O16: every kind of step, and both outcomes of an operation, keep the field. -/
theorem nothingChangesTheBusMode : Obligations.NothingChangesTheBusMode := by
  refine ⟨fun s t h => step_mode h, fun i s t h => ?_⟩
  obtain ⟨_, rfl⟩ | ⟨_, rfl⟩ := exec_cases h
  · rfl
  · exact raiseFault_mode ..

/-! ### The fault bits -/

theorem legal_eq_false_iff (w : Word) : legal w = false ↔ decode w = none := by
  simp [legal, decode]

/-- The next turn is the host's write of the word to CMD (R66). -/
def State.cmdNext (s : State) (w : Word) : Prop := s.agenda.head? = some (.host (.write 0x00 4 w))

/-- The value of each fault bit after a step, by what the turn was (R19, R20). -/
theorem step_faults {s t : State} (h : step s = .next t) :
    (s.agenda.head? = some .reset ∧ t.faultIllegal = false ∧ t.faultOverrun = false) ∨
    (∃ w, s.cmdNext w ∧ t.faultIllegal = (s.faultIllegal || (!s.busy && !legal w)) ∧
      t.faultOverrun = (s.faultOverrun || s.busy)) ∨
    (s.agenda.head? ≠ some .reset ∧ (∀ w, ¬s.cmdNext w) ∧ t.faultIllegal = s.faultIllegal ∧
      t.faultOverrun = s.faultOverrun) := by
  obtain ⟨ha, rfl⟩ | ⟨rest, ha, rfl⟩ | ⟨_, _, _, ha, _, rfl⟩ | ⟨_, w, ha, hb, rfl⟩ | ⟨_, w, ha, hs, hd, rfl⟩ |
    ⟨_, w, i, ha, hs, hd, rfl⟩ | ⟨_, ha, rfl⟩ := step_cases h
  · obtain ⟨hill, hovr, -⟩ := engineTurn_frame s
    exact .inr (.inr ⟨by simp [ha], by simp [State.cmdNext, ha], hill, hovr⟩)
  · obtain ⟨hill, hovr, -⟩ := engineTurn_frame { s with agenda := rest }
    exact .inr (.inr ⟨by simp [ha], by simp [State.cmdNext, ha], hill, hovr⟩)
  · exact .inr (.inr ⟨by simp [ha], by simp [State.cmdNext, ha], rfl, rfl⟩)
  · exact .inr (.inl ⟨w, by simp [State.cmdNext, ha], by simp [hb], by simp [hb]⟩)
  · have hl : legal w = false := (legal_eq_false_iff w).mpr hd
    exact .inr (.inl ⟨w, by simp [State.cmdNext, ha], by simp [busy_of_idle hs, hl], by simp [busy_of_idle hs]⟩)
  · have hl : legal w = true := by
      by_contra hc
      simp [(legal_eq_false_iff w).mp (by simpa using hc)] at hd
    exact .inr (.inl ⟨w, by simp [State.cmdNext, ha], by simp [hl], by simp [busy_of_idle hs]⟩)
  · exact .inl ⟨by simp [ha], rfl, rfl⟩

/-- Settles O10: each kind of turn gives each bit the value its cause says. -/
theorem faultBitsHaveOneCauseAndOnlyResetClearsThem : Obligations.FaultBitsHaveOneCauseAndOnlyResetClearsThem := by
  refine ⟨fun s t h => ?_, fun s => ⟨statusWord_faultIllegal s, statusWord_faultOverrun s⟩, rfl, rfl⟩
  obtain ⟨ha, hill, hovr⟩ | ⟨w, hw, hill, hovr⟩ | ⟨ha, hno, hill, hovr⟩ := step_faults h <;> rw [hill, hovr]
  · simp [ha]
  · have hidle : s.busy = false ↔ s.seq = .idle := by simpa using (busy_iff_ne_idle s).not
    have hw : s.agenda.head? = some (.host (.write 0x00 4 w)) := hw
    simp [hw, hidle]
  · have hno : ∀ w, s.agenda.head? ≠ some (.host (.write 0x00 4 w)) := hno
    simp [ha, hno]

end Sys2Proof.Machine
end

section
/-! The statements of 10_state.md about the sequencer, the lines and RESULT.KEY: where an engine at a position can be after
a step, and what the step may have done to the pins. -/

namespace Sys2Proof.Machine

/-! ### What one action leaves to perform -/

@[simp] theorem afterRead_word (a : Action) (l : Level) (p : Progress) : (p.afterRead a l).word = p.word := by
  unfold Progress.afterRead; split <;> rfl

/-- Only the end of a release wait finds a key, and it leaves nothing to perform (R93). -/
theorem afterRead_answer {a : Action} {l : Level} {p : Progress} (h : ∀ r c, a ≠ .releaseRead r c ∨ l ≠ .high) :
    (p.afterRead a l).answer = p.answer := by
  unfold Progress.afterRead; split <;> simp_all

/-- What is left after an action: the rest, or what a read puts in its place (R67). -/
theorem afterRead_todo_cases (a : Action) (l : Level) (p : Progress) :
    (p.afterRead a l).todo = p.todo ∨
    (a = .pollRead ∧ (p.afterRead a l).todo = enablePulse ++ .pollRead :: p.todo) ∨
    (∃ r c, a = .scanRead r c ∧ (p.afterRead a l).todo = .delay .deb :: .confirmRead r c :: p.todo) ∨
    (∃ r c, a = .confirmRead r c ∧ (p.afterRead a l).todo = [.releaseRead r c]) ∨
    (∃ r c, a = .releaseRead r c ∧ l = .low ∧ (p.afterRead a l).todo = .releaseRead r c :: p.todo) ∨
    (∃ r c, a = .releaseRead r c ∧ l = .high ∧ (p.afterRead a l).todo = []) := by
  unfold Progress.afterRead
  split <;> simp

/-- Where an action that reads nothing leads is where a read that departs from nothing leads. -/
theorem afterRead_of_not_reads {a : Action} (l : Level) (p : Progress) (h : a.reads = false) :
    p.afterRead a l = { p with sample := some l } := by
  cases a <;> simp_all [Action.reads, Progress.afterRead]

theorem perform_todo (a : Action) (p : Progress) (s : State) :
    (s.perform a p).todo = (p.afterRead a s.nextDraw).todo := by
  cases h : a.reads
  · rw [(perform_rest_of_not_reads p s h).1, afterRead_of_not_reads _ p h]
  · rw [perform_of_reads a p s h, resume_todo]

theorem perform_seq_of_end {a : Action} {p : Progress} {s : State} (h : (p.afterRead a s.nextDraw).todo = []) :
    (s.perform a p).seq = .idle := by
  cases hr : a.reads
  · rw [afterRead_of_not_reads _ p hr] at h
    rw [perform_of_not_reads a p s s.nextDraw hr, resume_of_nil _ p h]
  · rw [perform_of_reads a p s hr, resume_of_nil _ _ h]

/-- While something is left, the sequencer keeps its word and its answer. -/
theorem perform_seq_of_more {a : Action} {p : Progress} {s : State} (h : (p.afterRead a s.nextDraw).todo ≠ []) :
    ∃ q, (s.perform a p).seq = .running q ∧ q.word = p.word ∧ q.answer = p.answer := by
  cases hr : a.reads
  · rw [afterRead_of_not_reads _ p hr] at h
    exact ⟨p, by rw [perform_of_not_reads a p s s.nextDraw hr, resume_of_ne_nil _ p h], rfl, rfl⟩
  · refine ⟨_, by rw [perform_of_reads a p s hr, resume_of_ne_nil _ _ h], afterRead_word .., afterRead_answer ?_⟩
    intro r c
    by_contra hc
    obtain ⟨rfl, hl⟩ : a = .releaseRead r c ∧ s.nextDraw = .high := by simpa using hc
    exact h (by simp [hl, Progress.afterRead])

/-- RESULT.KEY takes the answer with the last event of an operation, and no other (R22). -/
theorem perform_key (a : Action) (p : Progress) (s : State) :
    (s.perform a p).key =
      if (p.afterRead a s.nextDraw).todo = [] then (p.afterRead a s.nextDraw).answer.getD s.key else s.key := by
  cases hr : a.reads
  · rw [perform_of_not_reads a p s s.nextDraw hr, afterRead_of_not_reads _ p hr]
    split
    · next h => rw [resume_of_nil _ p h]
    · next h => rw [resume_of_ne_nil _ p h]
  · rw [perform_of_reads a p s hr]
    split
    · next h => rw [resume_of_nil _ _ h, emit_key, dropDraw_key]
    · next h => rw [resume_of_ne_nil _ _ h, emit_key, dropDraw_key]

/-! ### What the operations' sequences hold -/

theorem confirmRead_not_mem_scriptOf (m : Mode) (codes : List Byte) (i : Instr) (r c : Fin 4) :
    .confirmRead r c ∉ scriptOf m codes i := by
  by_cases hi : i = .scanKey
  · subst hi; exact fun h => by simpa using mem_scanKeyScript _ h
  · exact (scriptOf_fit m codes i hi).noconf r c

theorem releaseRead_not_mem_scriptOf (m : Mode) (codes : List Byte) (i : Instr) (r c : Fin 4) :
    .releaseRead r c ∉ scriptOf m codes i := by
  by_cases hi : i = .scanKey
  · subst hi; exact fun h => by simpa using mem_scanKeyScript _ h
  · exact (scriptOf_fit m codes i hi).norel r c

/-- Only a scan reads columns (R93). -/
theorem eq_scanKey_of_scanRead_mem {m : Mode} {codes : List Byte} {i : Instr} {r c : Fin 4}
    (h : .scanRead r c ∈ scriptOf m codes i) : i = .scanKey := by
  by_contra hi
  exact (scriptOf_fit m codes i hi).noscan r c h

/-- A scan changes no direction (R93). -/
theorem ne_scanKey_of_setDir_mem {m : Mode} {codes : List Byte} {i : Instr} {k : Fin 8} {d : Dir}
    (h : .setDir k d ∈ scriptOf m codes i) : i ≠ .scanKey := by
  rintro rfl; simpa using mem_scanKeyScript _ h

/-- A scan samples no busy flag (R93). -/
theorem ne_scanKey_of_pollRead_mem {m : Mode} {codes : List Byte} {i : Instr} (h : .pollRead ∈ scriptOf m codes i) :
    i ≠ .scanKey := by
  rintro rfl; simpa using mem_scanKeyScript _ h

/-- Data lines are written in DA(MODE) only (R30). -/
theorem mem_dataLines_of_write_mem {m : Mode} {codes : List Byte} {i : Instr} {k : Fin 8} {v : Level}
    (h : .write (.data k) v ∈ scriptOf m codes i) : k ∈ dataLines m := by
  by_cases hi : i = .scanKey
  · subst hi; simpa using mem_scanKeyScript _ h
  · exact (scriptOf_fit m codes i hi).data k v h

theorem mem_of_cons_suffix {a : Action} {rest l : List Action} (h : (a :: rest) <:+ l) : a ∈ l :=
  h.subset List.mem_cons_self

theorem suffix_of_cons_suffix {a : Action} {rest l : List Action} (h : (a :: rest) <:+ l) : rest <:+ l :=
  (List.suffix_cons a rest).trans h

/-! ### Positions -/

/-- The first action at a position: one of the sequence, or part of the confirmation or the release wait of a column. -/
theorem AtPosition.cases {script : List Action} {a : Action} {rest : List Action} (h : AtPosition script (a :: rest)) :
    (a :: rest) <:+ script ∨
      ∃ r c more, (Action.scanRead r c :: more) <:+ script ∧
        ((a = .delay .deb ∧ rest = .confirmRead r c :: more) ∨ (a = .confirmRead r c ∧ rest = more) ∨
          (a = .releaseRead r c ∧ rest = [])) := by
  obtain ⟨-, hs | ⟨r, c, more, hs, ht⟩⟩ := h
  · exact .inl hs
  · exact .inr ⟨r, c, more, hs, by simpa only [List.cons.injEq] using ht⟩

/-- A write, a direction change or a poll's sample at a position is one of the sequence. -/
theorem AtPosition.suffix {script : List Action} {a : Action} {rest : List Action} (h : AtPosition script (a :: rest))
    (hdelay : a ≠ .delay .deb) (hconf : ∀ r c, a ≠ .confirmRead r c) (hrel : ∀ r c, a ≠ .releaseRead r c) :
    (a :: rest) <:+ script := by
  obtain hs | ⟨r, c, more, -, ⟨ha, -⟩ | ⟨ha, -⟩ | ⟨ha, -⟩⟩ := h.cases
  · exact hs
  · exact absurd ha hdelay
  · exact absurd ha (hconf r c)
  · exact absurd ha (hrel r c)

theorem AtPosition.write_mem {script rest : List Action} {line : OutLine} {v : Level}
    (h : AtPosition script (.write line v :: rest)) : .write line v ∈ script :=
  mem_of_cons_suffix (h.suffix (by simp) (by simp) (by simp))

theorem AtPosition.setDir_suffix {script rest : List Action} {k : Fin 8} {d : Dir}
    (h : AtPosition script (.setDir k d :: rest)) : (.setDir k d :: rest) <:+ script :=
  h.suffix (by simp) (by simp) (by simp)

section
variable {m : Mode} {codes : List Byte} {i : Instr} {rest : List Action}

/-- The confirming read stands before the rest of the scan behind its column (R91). -/
theorem AtPosition.of_confirmRead {r c : Fin 4} (h : AtPosition (scriptOf m codes i) (.confirmRead r c :: rest)) :
    (.scanRead r c :: rest) <:+ scriptOf m codes i := by
  obtain hs | ⟨r', c', more, hs, ⟨ha, -⟩ | ⟨ha, rfl⟩ | ⟨ha, -⟩⟩ := h.cases
  · exact absurd (mem_of_cons_suffix hs) (confirmRead_not_mem_scriptOf m codes i r c)
  · cases ha
  · cases ha; exact hs
  · cases ha

/-- The release wait is the last part of a scan (R92, R93). -/
theorem AtPosition.of_releaseRead {r c : Fin 4} (h : AtPosition (scriptOf m codes i) (.releaseRead r c :: rest)) :
    rest = [] ∧ i = .scanKey := by
  obtain hs | ⟨r', c', more, hs, ⟨ha, -⟩ | ⟨ha, -⟩ | ⟨ha, hrest⟩⟩ := h.cases
  · exact absurd (mem_of_cons_suffix hs) (releaseRead_not_mem_scriptOf m codes i r c)
  · cases ha
  · cases ha
  · exact ⟨hrest, eq_scanKey_of_scanRead_mem (mem_of_cons_suffix hs)⟩

/-- What follows the first action of a position is a position, or the end, except behind a confirmed key. -/
theorem AtPosition.tail {a : Action} (h : AtPosition (scriptOf m codes i) (a :: rest)) (hne : rest ≠ []) :
    AtPosition (scriptOf m codes i) rest := by
  obtain hs | ⟨r, c, more, hs, ⟨-, hrest⟩ | ⟨-, hrest⟩ | ⟨-, hrest⟩⟩ := h.cases
  · exact ⟨hne, .inl (suffix_of_cons_suffix hs)⟩
  · exact ⟨hne, .inr ⟨r, c, more, hs, .inr (.inl hrest)⟩⟩
  · exact ⟨hne, .inl (hrest ▸ suffix_of_cons_suffix hs)⟩
  · exact absurd hrest hne

/-- Whatever level a read returns, the engine goes on at a position of the same operation (R34, R67). -/
theorem AtPosition.next {a : Action} (h : AtPosition (scriptOf m codes i) (a :: rest)) (l : Level) {p : Progress}
    (hp : p.todo = rest) (hne : (p.afterRead a l).todo ≠ []) :
    AtPosition (scriptOf m codes i) (p.afterRead a l).todo := by
  subst hp
  obtain ht | ⟨rfl, ht⟩ | ⟨r, c, rfl, ht⟩ | ⟨r, c, rfl, ht⟩ | ⟨r, c, rfl, -, ht⟩ | ⟨r, c, rfl, -, ht⟩ :=
    afterRead_todo_cases a l p
  · rw [ht] at hne ⊢
    exact h.tail hne
  · have hs := h.suffix (by simp) (by simp) (by simp)
    have hfit := scriptOf_fit m codes i (ne_scanKey_of_pollRead_mem (mem_of_cons_suffix hs))
    exact ⟨hne, .inl (ht ▸ (hfit.poll _ hs).1)⟩
  · exact ⟨hne, .inr ⟨r, c, p.todo, h.suffix (by simp) (by simp) (by simp), .inl ht⟩⟩
  · exact ⟨hne, .inr ⟨r, c, p.todo, h.of_confirmRead, .inr (.inr ht)⟩⟩
  · exact ht ▸ h
  · exact absurd ht hne

end

theorem atPosition_scriptOf (m : Mode) (codes : List Byte) (i : Instr) :
    AtPosition (scriptOf m codes i) (scriptOf m codes i) :=
  ⟨scriptOf_ne_nil m codes i, .inl List.suffix_rfl⟩

/-! ### What a step can do to an engine at a position -/

/-- The step was a turn of the running operation `i`, which performed the action `a` with `rest` behind it. -/
structure EngineActs (s t : State) (i : Instr) (p : Progress) (a : Action) (rest : List Action) : Prop where
  seq : s.seq = .running p
  todo : p.todo = a :: rest
  op : decode p.word = some i
  pos : AtPosition (scriptOf s.mode s.initSeq i) (a :: rest)
  answer : p.answer = answerOf i
  next : ∃ turns, t = State.perform a { p with todo := rest } { s with agenda := turns }

/-- An idle engine took the operation `i` (R66). -/
def EngineAccepts (s t : State) (i : Instr) : Prop :=
  s.seq = .idle ∧ ∃ turns,
    t = { s with agenda := turns, seq := .running ⟨encode i, scriptOf s.mode s.initSeq i, none, answerOf i⟩ }

/-- Nothing but the fault bits, the agenda and the replies changed. -/
structure EngineRests (s t : State) : Prop where
  seq : t.seq = s.seq
  pins : t.pins = s.pins
  trace : t.trace = s.trace
  key : t.key = s.key
  mode : t.mode = s.mode
  initSeq : t.initSeq = s.initSeq

/-- The four things a step can do. -/
theorem step_at_position {s t : State} (hpos : s.positionOk) (h : step s = .next t) :
    (∃ i p a rest, EngineActs s t i p a rest) ∨ (∃ i, EngineAccepts s t i) ∨ EngineRests s t ∨
    (s.agenda.head? = some .reset ∧ ∃ turns, t = State.applyReset { s with agenda := turns }) := by
  have turn : ∀ turns, t = State.engineTurn { s with agenda := turns } →
      (∃ i p a rest, EngineActs s t i p a rest) ∨ EngineRests s t := by
    rintro turns rfl
    obtain ⟨hi, he⟩ | ⟨p, hp, ht, -⟩ | ⟨p, a, rest, hp, ht, he⟩ := engineTurn_cases { s with agenda := turns }
    · exact .inr (by rw [he]; exact ⟨rfl, rfl, rfl, rfl, rfl, rfl⟩)
    · obtain ⟨i, -, ⟨hne, -⟩, -⟩ := hpos p hp
      exact absurd ht hne
    · obtain ⟨i, hop, hat, hans⟩ := hpos p hp
      exact .inl ⟨i, p, a, rest, hp, ht, hop, ht ▸ hat, hans, turns, he⟩
  obtain ⟨ha, rfl⟩ | ⟨rest, -, ht⟩ | ⟨_, _, _, -, -, rfl⟩ | ⟨_, _, -, -, rfl⟩ | ⟨_, _, -, -, -, rfl⟩ |
    ⟨rest, w, i, -, hi, -, ht⟩ | ⟨rest, ha, ht⟩ := step_cases h
  · exact (turn s.agenda rfl).imp_right fun hr => .inr (.inl hr)
  · exact (turn rest ht).imp_right fun hr => .inr (.inl hr)
  · exact .inr (.inr (.inl ⟨rfl, rfl, rfl, rfl, rfl, rfl⟩))
  · exact .inr (.inr (.inl ⟨rfl, rfl, rfl, rfl, rfl, rfl⟩))
  · exact .inr (.inr (.inl ⟨rfl, rfl, rfl, rfl, rfl, rfl⟩))
  · exact .inr (.inl ⟨i, hi, rest, ht⟩)
  · exact .inr (.inr (.inr ⟨by rw [ha, List.head?_cons], rest, ht⟩))

section
variable {s t : State} {i : Instr} {p : Progress} {a : Action} {rest : List Action} (h : EngineActs s t i p a rest)
include h

theorem EngineActs.trace_eq : t.trace = s.trace ++ [a.event s.nextDraw] := by
  obtain ⟨turns, rfl⟩ := h.next; exact perform_trace ..

theorem EngineActs.pins_eq : t.pins = s.pins.afterEvent (a.event s.nextDraw) := by
  obtain ⟨turns, rfl⟩ := h.next; exact perform_pins ..

theorem EngineActs.mode_eq : t.mode = s.mode := by
  obtain ⟨turns, rfl⟩ := h.next
  obtain ⟨-, -, hmode, -, -⟩ := perform_frame a { p with todo := rest } { s with agenda := turns }
  exact hmode

theorem EngineActs.initSeq_eq : t.initSeq = s.initSeq := by
  obtain ⟨turns, ht⟩ := h.next
  obtain ⟨h4, h8⟩ := perform_initSeqs a { p with todo := rest } { s with agenda := turns }
  exact initSeq_congr h.mode_eq (ht ▸ h4) (ht ▸ h8)

theorem EngineActs.todo_eq : t.todo = (Progress.afterRead a s.nextDraw { p with todo := rest }).todo := by
  obtain ⟨turns, rfl⟩ := h.next; exact perform_todo ..

theorem EngineActs.key_eq :
    t.key = if (Progress.afterRead a s.nextDraw { p with todo := rest }).todo = [] then
      (Progress.afterRead a s.nextDraw { p with todo := rest }).answer.getD s.key else s.key := by
  obtain ⟨turns, rfl⟩ := h.next; exact perform_key ..

theorem EngineActs.idle_iff :
    t.seq = .idle ↔ (Progress.afterRead a s.nextDraw { p with todo := rest }).todo = [] := by
  refine ⟨fun hi => by rw [← h.todo_eq, todo_of_idle hi], fun hend => ?_⟩
  obtain ⟨turns, rfl⟩ := h.next
  exact perform_seq_of_end (s := { s with agenda := turns }) hend

theorem EngineActs.todo_ne_nil {q : Progress} (hq : t.seq = .running q) :
    (Progress.afterRead a s.nextDraw { p with todo := rest }).todo ≠ [] := by
  intro hend
  rw [h.idle_iff.mpr hend] at hq
  cases hq

/-- An engine that acted and still runs has the word and the answer it had. -/
theorem EngineActs.running_eq {q : Progress} (hq : t.seq = .running q) : q.word = p.word ∧ q.answer = p.answer := by
  have hmore := h.todo_ne_nil hq
  obtain ⟨turns, rfl⟩ := h.next
  obtain ⟨q', hq', hw, ha⟩ := perform_seq_of_more (s := { s with agenda := turns }) hmore
  cases hq.symm.trans hq'
  exact ⟨hw, ha⟩

theorem EngineActs.positionOk : t.positionOk := by
  intro q hq
  obtain ⟨hw, ha⟩ := h.running_eq hq
  refine ⟨i, hw ▸ h.op, ?_, ha.trans h.answer⟩
  rw [h.mode_eq, h.initSeq_eq, ← todo_of_running hq, h.todo_eq]
  exact h.pos.next _ rfl (h.todo_ne_nil hq)

end

theorem EngineAccepts.positionOk {s t : State} {i : Instr} (h : EngineAccepts s t i) : t.positionOk := by
  obtain ⟨-, turns, rfl⟩ := h
  intro p hp
  cases hp
  exact ⟨i, decode_encode i, atPosition_scriptOf .., rfl⟩

theorem EngineRests.positionOk {s t : State} (h : EngineRests s t) (hpos : s.positionOk) : t.positionOk := by
  intro p hp
  rw [h.mode, h.initSeq]
  exact hpos p (h.seq ▸ hp)

/-- Settles O22: an action leads to a position of the same operation, and a command starts at the first one of its own. -/
theorem everyStepKeepsTheSequencerAtAPosition : Obligations.EveryStepKeepsTheSequencerAtAPosition := by
  intro s t hpos h
  obtain ⟨i, p, a, rest, hact⟩ | ⟨i, hacc⟩ | hrest | ⟨-, turns, rfl⟩ := step_at_position hpos h
  · exact hact.positionOk
  · exact hacc.positionOk
  · exact hrest.positionOk hpos
  · exact positionOk_of_idle rfl

/-! ### The directions of the data lines -/

theorem insidePoll_of_no_setDir (j : Fin 8) {l : List Action} (h : ∀ k d, Action.setDir k d ∉ l) :
    insidePoll j l = false := by
  induction l with
  | nil => rfl
  | cons a l ih =>
    have hl : insidePoll j l = false := ih fun k d hm => h k d (List.mem_cons_of_mem a hm)
    cases a with
    | setDir k d => exact absurd List.mem_cons_self (h k d)
    | _ => exact hl

/-- No operation begins inside a poll. -/
theorem insidePoll_scriptOf (m : Mode) (codes : List Byte) (i : Instr) (j : Fin 8) :
    insidePoll j (scriptOf m codes i) = false := by
  by_cases hi : i = .scanKey
  · subst hi; exact insidePoll_of_no_setDir j fun k d hm => ne_scanKey_of_setDir_mem (m := m) (codes := codes) hm rfl
  · exact (scriptOf_fit m codes i hi).out j

/-- An action other than a direction change stands on the same side of a poll as what it leaves to perform. -/
theorem AtPosition.insidePoll_next {m : Mode} {codes : List Byte} {i : Instr} {a : Action} {rest : List Action}
    (h : AtPosition (scriptOf m codes i) (a :: rest)) (hdir : ∀ k d, a ≠ .setDir k d) (l : Level) {p : Progress}
    (hp : p.todo = rest) (j : Fin 8) : insidePoll j (p.afterRead a l).todo = insidePoll j (a :: rest) := by
  subst hp
  have hcons : insidePoll j (a :: p.todo) = insidePoll j p.todo := by
    cases a with
    | setDir k d => exact absurd rfl (hdir k d)
    | _ => rfl
  rw [hcons]
  obtain ht | ⟨rfl, ht⟩ | ⟨r, c, rfl, ht⟩ | ⟨r, c, rfl, ht⟩ | ⟨r, c, rfl, -, ht⟩ | ⟨r, c, rfl, -, ht⟩ :=
    afterRead_todo_cases a l p <;> rw [ht]
  · rfl
  · rfl
  · have hs := h.of_confirmRead
    obtain rfl := eq_scanKey_of_scanRead_mem (mem_of_cons_suffix hs)
    exact (insidePoll_of_no_setDir j fun k d hm =>
      ne_scanKey_of_setDir_mem ((suffix_of_cons_suffix hs).subset hm) rfl).symm
  · rfl
  · rw [h.of_releaseRead.1]

/-- A direction change at a position is one of DA(MODE), and what follows is a poll exactly when it makes an input (R75). -/
theorem AtPosition.of_setDir {m : Mode} {codes : List Byte} {i : Instr} {k : Fin 8} {d : Dir} {rest : List Action}
    (h : AtPosition (scriptOf m codes i) (.setDir k d :: rest)) :
    k ∈ dataLines m ∧ insidePoll k rest = (d == .input) := by
  have hs := h.setDir_suffix
  exact (scriptOf_fit m codes i (ne_scanKey_of_setDir_mem (mem_of_cons_suffix hs))).dir k d rest hs

theorem afterEvent_dir_of_ne {a : Action} (hdir : ∀ k d, a ≠ .setDir k d) (l : Level) (p : Pins) (j : Fin 8) :
    (p.afterEvent (a.event l)).data[j].dir = p.data[j].dir := by
  cases a with
  | setDir k d => exact absurd rfl (hdir k d)
  | write line v => exact setLevel_dir p line v j
  | _ => rfl

theorem EngineActs.directionsOk {s t : State} {i : Instr} {p : Progress} {a : Action} {rest : List Action}
    (h : EngineActs s t i p a rest) (hdirs : s.directionsOk) : t.directionsOk := by
  intro j hj
  rw [h.mode_eq] at hj
  have hbefore := hdirs j hj
  rw [todo_of_running h.seq, h.todo] at hbefore
  rw [h.todo_eq, h.pins_eq]
  by_cases ha : ∃ k d, a = .setDir k d
  · obtain ⟨k, d, rfl⟩ := ha
    rw [Action.event, afterEvent_dir, setDir_dir, afterRead_of_not_reads _ _ rfl]
    by_cases hjk : j = k
    · subst hjk
      rw [if_pos rfl, h.pos.of_setDir.2]
      cases d <;> rfl
    · rw [if_neg hjk, hbefore, insidePoll, if_neg (Ne.symm hjk)]
  · simp only [not_exists] at ha
    rw [afterEvent_dir_of_ne ha, hbefore, h.pos.insidePoll_next ha _ rfl]

/-- Settles O24: a direction change opens or closes the poll for its line, and no other event moves a line across one. -/
theorem dataLinesAreInputsOnlyInsideAPoll : Obligations.DataLinesAreInputsOnlyInsideAPoll := by
  intro s t hpos hdirs hreset h
  obtain ⟨i, p, a, rest, hact⟩ | ⟨i, hidle, turns, rfl⟩ | hrest | ⟨hr, -⟩ := step_at_position hpos h
  · exact hact.directionsOk hdirs
  · intro j hj
    have hbefore := hdirs j hj
    rw [todo_of_idle hidle] at hbefore
    rw [todo_of_running rfl, insidePoll_scriptOf]
    exact hbefore
  · intro j hj
    have htodo : t.todo = s.todo := by rw [State.todo, hrest.seq, State.todo]
    rw [htodo, hrest.pins]
    exact hdirs j (hrest.mode ▸ hj)
  · exact absurd hr hreset

end Sys2Proof.Machine
end

section
/-! The statements of 10_state.md about single lines and RESULT.KEY: what a step may have done to them, by the operation that
runs. -/

namespace Sys2Proof.Machine

/-! ### One line under one event -/

theorem set_data_of_ne {i k : Fin 8} (h : k ≠ i) (p : Pins) (pin : DataPin) : (p.data.set k pin)[i] = p.data[i] :=
  Vector.getElem_set_ne k.isLt i.isLt (Fin.val_ne_of_ne h)

/-- An event that does not name a data line leaves its latch and its direction alone (R68, R69). -/
theorem afterEvent_data_of_line_ne {e : Event} {i : Fin 8} (h : e.line ≠ some (.data i)) (p : Pins) :
    (p.afterEvent e).data[i] = p.data[i] := by
  cases e with
  | dir k d => exact set_data_of_ne (fun hk => h (by rw [hk]; rfl)) p _
  | w line v =>
    cases line with
    | data k => exact set_data_of_ne (fun hk => h (by rw [hk]; rfl)) p _
    | _ => rfl
  | r _ _ => rfl
  | dly _ => rfl

/-- A latch changes under a write to its line only (R31, R68). -/
theorem afterEvent_level_of_ne {a : Action} {line : OutLine} (h : ∀ v, a ≠ .write line v) (l : Level) (p : Pins) :
    (p.afterEvent (a.event l)).level line = p.level line := by
  cases a with
  | setDir k d => exact setDir_level p k d line
  | write line' v => exact setLevel_level_of_ne p line' line v fun hl => h v (by rw [hl])
  | _ => rfl

theorem afterEvent_rows_of_ne {a : Action} (h : ∀ q v, a ≠ .write (.row q) v) (l : Level) (p : Pins) :
    (p.afterEvent (a.event l)).rows = p.rows := by
  cases a with
  | write line v =>
    cases line with
    | row q => exact absurd rfl (h q v)
    | _ => rfl
  | _ => rfl

/-- Settles O29: the one event of the step is the direction change, which keeps every latch. -/
theorem directionChangesKeepEveryLatch : Obligations.DirectionChangesKeepEveryLatch := by
  intro s t i d h htrace
  obtain ⟨hsame, -⟩ | ⟨e, -, he, hpins⟩ := eachStepPerformsAtMostOneEvent s t h
  · rw [hsame] at htrace
    simp at htrace
  · obtain rfl : e = .dir i d := by simpa using he.symm.trans htrace
    rw [afterEvent_dir] at hpins
    have hlevel : ∀ line, t.pins.level line = s.pins.level line := fun line => by rw [hpins, setDir_level]
    have hdir : t.pins.data[i].dir = d := by rw [hpins, setDir_dir, if_pos rfl]
    refine ⟨hlevel, hdir, ?_⟩
    rintro rfl
    rw [← hlevel (.data i)]
    exact if_pos hdir

/-! ### Which operation touches which line -/

/-- A sequence that writes neither chip select. -/
def LeavesChipSelects (l : List Action) : Prop := ∀ a ∈ l, ∀ v, a ≠ .write .cs1 v ∧ a ≠ .write .cs2 v

theorem LeavesChipSelects.append {l l' : List Action} (h : LeavesChipSelects l) (h' : LeavesChipSelects l') :
    LeavesChipSelects (l ++ l') :=
  List.forall_mem_append.mpr ⟨h, h'⟩

theorem frame_leavesChipSelects (m : Mode) (rs : Level) (b : Byte) : LeavesChipSelects (frame m rs b) := by
  cases m <;> simp [LeavesChipSelects, frame, xfer, putByte, putNibble, dataLines, enablePulse]

theorem busyPoll_leavesChipSelects (m : Mode) : LeavesChipSelects (busyPoll m) := by
  cases m <;> simp [LeavesChipSelects, busyPoll, dataLines, enablePulse]

theorem sendCmd_leavesChipSelects (m : Mode) (code : Byte) : LeavesChipSelects (sendCmdScript m code) := by
  cases m
  · exact (frame_leavesChipSelects .fourBit .low code).append (busyPoll_leavesChipSelects .fourBit)
  · exact frame_leavesChipSelects .eightBit .low code

/-- Every operation but the two chip-targeted ones (R27). -/
theorem scriptOf_leavesChipSelects (m : Mode) (codes : List Byte) {i : Instr}
    (hcmd : ∀ code chip, i ≠ .cmdToChip code chip) (hcur : ∀ page column chip, i ≠ .setCursor page column chip) :
    LeavesChipSelects (scriptOf m codes i) := by
  cases i with
  | init =>
    refine List.forall_mem_cons.mpr ⟨by simp, fun a ha => ?_⟩
    obtain ⟨code, -, hcode⟩ := List.mem_flatMap.mp ha
    exact sendCmd_leavesChipSelects m code a hcode
  | sendCmd code => exact sendCmd_leavesChipSelects m code
  | printChar ch => exact (frame_leavesChipSelects m .high ch).append (busyPoll_leavesChipSelects m)
  | clear => exact (frame_leavesChipSelects m .low clearByte).append (busyPoll_leavesChipSelects m)
  | setCursor page column chip => exact absurd rfl (hcur page column chip)
  | cmdToChip code chip => exact absurd rfl (hcmd code chip)
  | waitBusy => exact busyPoll_leavesChipSelects m
  | scanKey =>
    intro a ha v
    obtain ⟨q, u, rfl⟩ | ⟨d, rfl⟩ | ⟨r, c, rfl⟩ := mem_scanKeyScript a ha <;> simp

/-- The events of a data line: its direction changes, its writes, and for D7 the poll's sample. -/
theorem eq_of_event_line {a : Action} {l : Level} {i : Fin 8} (h : (a.event l).line = some (.data i)) :
    (∃ d, a = .setDir i d) ∨ (∃ v, a = .write (.data i) v) ∨ i = 7 := by
  cases a with
  | setDir k d =>
    obtain rfl : k = i := by simpa [Action.event, Event.line] using h
    exact .inl ⟨d, rfl⟩
  | write line v =>
    cases line with
    | data k =>
      obtain rfl : k = i := by simpa [Action.event, Event.line, lineOfOut] using h
      exact .inr (.inl ⟨v, rfl⟩)
    | _ => simp [Action.event, Event.line, lineOfOut] at h
  | pollRead => exact .inr (.inr (by simpa [Action.event, Event.line, lineOfIn, eq_comm] using h))
  | _ => simp [Action.event, Event.line, lineOfIn] at h

section
variable {s t : State} {i : Instr} {p : Progress} {a : Action} {rest : List Action} (h : EngineActs s t i p a rest)
include h

/-- The engine writes no line that its operation's sequence does not write. -/
theorem EngineActs.ne_write {line : OutLine} {v : Level} (hno : .write line v ∉ scriptOf s.mode s.initSeq i) :
    a ≠ .write line v := by
  rintro rfl; exact hno h.pos.write_mem

theorem EngineActs.chipSelects_eq (hcmd : ∀ code chip, i ≠ .cmdToChip code chip)
    (hcur : ∀ page column chip, i ≠ .setCursor page column chip) :
    t.pins.cs1 = s.pins.cs1 ∧ t.pins.cs2 = s.pins.cs2 := by
  have hleaves := scriptOf_leavesChipSelects s.mode s.initSeq hcmd hcur
  rw [h.pins_eq]
  exact ⟨afterEvent_level_of_ne (line := .cs1) (fun v => h.ne_write fun hm => (hleaves _ hm v).1 rfl) _ _,
    afterEvent_level_of_ne (line := .cs2) (fun v => h.ne_write fun hm => (hleaves _ hm v).2 rfl) _ _⟩

theorem EngineActs.rows_eq (hi : i ≠ .scanKey) : t.pins.rows = s.pins.rows := by
  rw [h.pins_eq]
  exact afterEvent_rows_of_ne (fun q v => h.ne_write ((scriptOf_fit s.mode s.initSeq i hi).norow q v)) _ _

/-- A data line that an event of a running operation names is one of DA(MODE) (R30). -/
theorem EngineActs.mem_dataLines {k : Fin 8} {l : Level} (hk : (a.event l).line = some (.data k)) :
    k ∈ dataLines s.mode := by
  obtain ⟨d, rfl⟩ | ⟨v, rfl⟩ | rfl := eq_of_event_line hk
  · exact h.pos.of_setDir.1
  · exact mem_dataLines_of_write_mem h.pos.write_mem
  · cases s.mode <;> decide

end

/-- What a scan does to the pins: at most a write of a row (R93). -/
theorem EngineActs.scan_lcd_eq {s t : State} {p : Progress} {a : Action} {rest : List Action}
    (h : EngineActs s t .scanKey p a rest) :
    t.pins.rs = s.pins.rs ∧ t.pins.rw = s.pins.rw ∧ t.pins.e = s.pins.e ∧ t.pins.data = s.pins.data := by
  rw [h.pins_eq]
  cases a with
  | setDir k d => exact absurd rfl (ne_scanKey_of_setDir_mem (mem_of_cons_suffix h.pos.setDir_suffix))
  | write line v =>
    obtain ⟨q, u, hw⟩ | ⟨d, hw⟩ | ⟨r, c, hw⟩ := mem_scanKeyScript _ h.pos.write_mem
    · cases hw; exact ⟨rfl, rfl, rfl, rfl⟩
    · cases hw
    · cases hw
  | _ => exact ⟨rfl, rfl, rfl, rfl⟩

/-- The pins `q` that operation `i` may leave where `p` were: the chip selects are the chip-targeted operations', the rows
the scan's, and the LCD lines not the scan's (R26, R27, R32, R93). -/
def OnlyItsLines (i : Instr) (p q : Pins) : Prop :=
  ((∀ code chip, i ≠ .cmdToChip code chip) → (∀ page column chip, i ≠ .setCursor page column chip) →
    q.cs1 = p.cs1 ∧ q.cs2 = p.cs2) ∧
  (i ≠ .scanKey → q.rows = p.rows) ∧
  (i = .scanKey → q.rs = p.rs ∧ q.rw = p.rw ∧ q.e = p.e ∧ q.data = p.data)

theorem OnlyItsLines.refl (i : Instr) (p : Pins) : OnlyItsLines i p p :=
  ⟨fun _ _ => ⟨rfl, rfl⟩, fun _ => rfl, fun _ => ⟨rfl, rfl, rfl, rfl⟩⟩

theorem EngineActs.onlyItsLines {s t : State} {i : Instr} {p : Progress} {a : Action} {rest : List Action}
    (h : EngineActs s t i p a rest) : OnlyItsLines i s.pins t.pins :=
  ⟨h.chipSelects_eq, h.rows_eq, by rintro rfl; exact h.scan_lcd_eq⟩

/-- Settles O27: what the running operation's sequence does not write, no step of it changes. -/
theorem eachLineChangesOnlyUnderItsWriters : Obligations.EachLineChangesOnlyUnderItsWriters := by
  intro s t hpos h
  obtain ⟨i, p, a, rest, hact⟩ | ⟨i, -, turns, rfl⟩ | hrest | ⟨-, turns, rfl⟩ := step_at_position hpos h
  · refine ⟨fun p' i' hp' hi' => ?_, fun hidle => ?_⟩
    · obtain rfl : p = p' := by simpa using hact.seq.symm.trans hp'
      obtain rfl : i = i' := by simpa using hact.op.symm.trans hi'
      exact hact.onlyItsLines
    · rw [hact.seq] at hidle; cases hidle
  · exact ⟨fun _ i' _ _ => OnlyItsLines.refl i' s.pins, fun _ => rfl⟩
  · rw [hrest.pins]
    exact ⟨fun _ i' _ _ => OnlyItsLines.refl i' s.pins, fun _ => rfl⟩
  · exact ⟨fun _ i' _ _ => OnlyItsLines.refl i' s.pins, fun _ => rfl⟩

/-- Settles O28: an event of a running operation names no data line outside DA(MODE). -/
theorem fourBitModeNeverTouchesTheLowDataLines : Obligations.FourBitModeNeverTouchesTheLowDataLines := by
  intro s t hpos hmode h i hi
  have hlow : i ∉ dataLines s.mode := by rw [hmode]; revert i; decide
  have still : t.pins = s.pins → t.trace = s.trace →
      t.pins.data[i] = s.pins.data[i] ∧ ∀ e, t.trace = s.trace ++ [e] → e.line ≠ some (.data i) :=
    fun hpins htrace => ⟨by rw [hpins], fun e he => by simp [htrace] at he⟩
  obtain ⟨op, p, a, rest, hact⟩ | ⟨op, -, turns, rfl⟩ | hrest | ⟨-, turns, rfl⟩ := step_at_position hpos h
  · have hline : (a.event s.nextDraw).line ≠ some (.data i) := fun hl => hlow (hact.mem_dataLines hl)
    refine ⟨by rw [hact.pins_eq, afterEvent_data_of_line_ne hline], fun e he => ?_⟩
    obtain rfl : a.event s.nextDraw = e := by simpa using hact.trace_eq.symm.trans he
    exact hline
  · exact still rfl rfl
  · exact still hrest.pins hrest.trace
  · exact still rfl rfl

/-! ### RESULT.KEY -/

theorem answerOf_of_ne_scanKey {i : Instr} (h : i ≠ .scanKey) : answerOf i = none := by
  cases i with
  | scanKey => exact absurd rfl h
  | _ => rfl

section
variable {s t : State} {i : Instr} {p : Progress} {a : Action} {rest : List Action} (h : EngineActs s t i p a rest)
include h

/-- The end of a release wait gives its key's code (R92, R93). -/
theorem EngineActs.key_of_release {r c : Fin 4} (ha : a = .releaseRead r c) (hend : t.seq = .idle) :
    t.key = keymap r c := by
  subst ha
  have hend := h.idle_iff.mp hend
  rw [h.key_eq, if_pos hend]
  cases hl : s.nextDraw with
  | low => rw [hl] at hend; cases hend
  | high => rfl

/-- Every other end of an operation gives the answer it began with, if it has one. -/
theorem EngineActs.key_of_no_release (ha : ∀ r c, a ≠ .releaseRead r c) (hend : t.seq = .idle) :
    t.key = (answerOf i).getD s.key := by
  rw [h.key_eq, if_pos (h.idle_iff.mp hend), afterRead_answer fun r c => .inl (ha r c), ← h.answer]

theorem EngineActs.key_of_more (hmore : t.seq ≠ .idle) : t.key = s.key := by
  rw [h.key_eq, if_neg fun hend => hmore (h.idle_iff.mpr hend)]

/-- An operation other than a scan keeps RESULT.KEY (R22). -/
theorem EngineActs.key_of_ne_scanKey (hi : i ≠ .scanKey) : t.key = s.key := by
  by_cases hend : t.seq = .idle
  · rw [h.key_of_no_release (fun r c ha => hi (ha ▸ h.pos).of_releaseRead.2) hend, answerOf_of_ne_scanKey hi,
      Option.getD_none]
  · exact h.key_of_more hend

end

/-- Settles O18: the last event of a scan writes the answer, which only the release wait's end changes. -/
theorem resultKeyChangesOnlyWhenAScanEnds : Obligations.ResultKeyChangesOnlyWhenAScanEnds := by
  refine ⟨resultWord_key, rfl, fun s t hpos h hreset => ?_⟩
  obtain ⟨i, p, a, rest, hact⟩ | ⟨i, hidle, turns, rfl⟩ | hrest | ⟨hr, -⟩ := step_at_position hpos h
  · refine ⟨fun p' hp' hop hend => ?_, fun hmore => ?_⟩
    · obtain rfl : p = p' := by simpa using hact.seq.symm.trans hp'
      obtain rfl : i = .scanKey := by simpa using hact.op.symm.trans hop
      refine ⟨fun r c htodo => ?_, fun hno => ?_⟩
      · obtain ⟨rfl, -⟩ : a = .releaseRead r c ∧ rest = [] := by simpa using hact.todo.symm.trans htodo
        exact hact.key_of_release rfl hend
      · refine hact.key_of_no_release (fun r c ha => hno r c ?_) hend
        subst ha
        rw [hact.todo, hact.pos.of_releaseRead.1]
    · by_cases hi : i = .scanKey
      · exact hact.key_of_more (hmore p hact.seq (hi ▸ hact.op))
      · exact hact.key_of_ne_scanKey hi
  · exact ⟨fun p' hp' => (by rw [hidle] at hp'; cases hp'), fun _ => rfl⟩
  · refine ⟨fun p' hp' _ hend => ?_, fun _ => hrest.key⟩
    rw [← hrest.seq, hend] at hp'
    cases hp'
  · exact absurd hr hreset

end Sys2Proof.Machine
end

section
/-! The levels and directions that a frame and a busy poll leave (R73 to R75). -/

namespace Sys2Proof.Machine

/-! ### Stretches of one kind of event -/

/-- Turning lines keeps every latch (R31). -/
theorem after_turns_level (lines : List (Fin 8)) (d : Dir) (p : Pins) (line : OutLine) :
    (p.after (lines.map (.dir · d))).level line = p.level line := by
  induction lines generalizing p with
  | nil => rfl
  | cons k lines ih => rw [List.map_cons, after_cons, ih, afterEvent_dir, setDir_level]

theorem after_turns_dir (lines : List (Fin 8)) (d : Dir) (p : Pins) (i : Fin 8) :
    (p.after (lines.map (.dir · d))).data[i].dir = if i ∈ lines then d else p.data[i].dir := by
  induction lines generalizing p with
  | nil => rfl
  | cons k lines ih =>
    rw [List.map_cons, after_cons, ih, afterEvent_dir, setDir_dir]
    by_cases hk : i = k <;> simp [hk]

/-- Turning lines touches the data lines only. -/
theorem after_turns_eq (lines : List (Fin 8)) (d : Dir) (p : Pins) :
    ∃ data, p.after (lines.map (.dir · d)) = { p with data := data } := by
  induction lines generalizing p with
  | nil => exact ⟨p.data, rfl⟩
  | cons k lines ih => exact ih (p.setDir k d)

/-- Writing data lines changes those latches (R68). -/
theorem after_dataWrites_level (lines : List (Fin 8)) (f : Fin 8 → Level) (p : Pins) (i : Fin 8) :
    (p.after (lines.map fun k => .w (.data k) (f k))).data[i].level = if i ∈ lines then f i else p.data[i].level := by
  induction lines generalizing p with
  | nil => rfl
  | cons k lines ih =>
    rw [List.map_cons, after_cons, ih, afterEvent_w]
    by_cases hk : i = k
    · subst hk
      have hself : (p.setLevel (.data i) (f i)).data[i].level = f i := setLevel_level_self p (.data i) (f i)
      rw [hself, ite_self, if_pos List.mem_cons_self]
    · have hother : (p.setLevel (.data k) (f k)).data[i].level = p.data[i].level :=
        setLevel_level_of_ne p (.data k) (.data i) (f k) (by simpa using hk)
      rw [hother]
      simp [hk]

/-- An event that is no direction change keeps every direction. -/
theorem after_dir_of_no_turn {tr : List Event} (h : ∀ e ∈ tr, ∀ k d, e ≠ .dir k d) (p : Pins) (i : Fin 8) :
    (p.after tr).data[i].dir = p.data[i].dir := by
  induction tr generalizing p with
  | nil => rfl
  | cons e tr ih =>
    obtain ⟨he, htr⟩ := List.forall_mem_cons.mp h
    rw [after_cons, ih htr]
    cases e with
    | dir k d => exact absurd rfl (he k d)
    | w line v => exact setLevel_dir p line v i
    | _ => rfl

theorem setLevel_data {line : OutLine} (h : ∀ k, line ≠ .data k) (p : Pins) (v : Level) :
    (p.setLevel line v).data = p.data := by
  cases line with
  | data k => exact absurd rfl (h k)
  | _ => rfl

/-- A pulse ends with E low (R70). -/
@[simp] theorem after_pulseTrace (p : Pins) : p.after pulseTrace = p.setLevel .e .low := rfl

/-! ### The frame -/

/-- The lines of DA(MODE) with the levels of the bits that stand `shift` below them, D7 first (R44, R45). -/
def busWrites (mode : Mode) (b : Byte) (shift : Nat) : List Event :=
  (dataLines mode).map fun k => .w (.data k) (levelOf (b.getLsbD (k.val - shift)))

theorem frameTrace_eightBit (rs : Level) (b : Byte) :
    frameTrace .eightBit rs b = [.w .rs rs, .w .rw .low] ++ busWrites .eightBit b 0 ++ pulseTrace := rfl

theorem frameTrace_fourBit (rs : Level) (b : Byte) :
    frameTrace .fourBit rs b =
      [.w .rs rs, .w .rw .low] ++ busWrites .fourBit b 0 ++ pulseTrace ++ busWrites .fourBit b 4 ++ pulseTrace := rfl

theorem after_busWrites_level (mode : Mode) (b : Byte) (shift : Nat) (p : Pins) (i : Fin 8) :
    (p.after (busWrites mode b shift)).data[i].level =
      if i ∈ dataLines mode then levelOf (b.getLsbD (i.val - shift)) else p.data[i].level :=
  after_dataWrites_level (dataLines mode) (fun k => levelOf (b.getLsbD (k.val - shift))) p i

theorem mem_dataLines_eightBit (i : Fin 8) : i ∈ dataLines .eightBit := by revert i; decide

theorem mem_dataLines_fourBit_iff (i : Fin 8) : i ∈ dataLines .fourBit ↔ 4 ≤ i.val := by revert i; decide

theorem after_frame_level_eightBit (p : Pins) (rs : Level) (b : Byte) (i : Fin 8) :
    (p.after (frameTrace .eightBit rs b)).data[i].level = levelOf (b.getLsbD i) := by
  rw [frameTrace_eightBit, after_append, after_append, after_pulseTrace, setLevel_data (by simp),
    after_busWrites_level, if_pos (mem_dataLines_eightBit i), Nat.sub_zero]

/-- The second transfer writes every line of the first, so the low nibble stays (R45, R73). -/
theorem after_frame_level_fourBit (p : Pins) (rs : Level) (b : Byte) (i : Fin 8) :
    (p.after (frameTrace .fourBit rs b)).data[i].level =
      if 4 ≤ i.val then levelOf (b.getLsbD (i - 4)) else p.data[i].level := by
  have hselect : (p.after [.w .rs rs, .w .rw .low]).data = p.data := rfl
  rw [frameTrace_fourBit, after_append, after_append, after_append, after_append, after_pulseTrace,
    setLevel_data (by simp), after_busWrites_level, after_pulseTrace, setLevel_data (by simp), after_busWrites_level,
    hselect]
  simp only [mem_dataLines_fourBit_iff]
  split <;> rfl

theorem frameTrace_no_turn (mode : Mode) (rs : Level) (b : Byte) : ∀ e ∈ frameTrace mode rs b, ∀ k d, e ≠ .dir k d := by
  cases mode <;> simp [frameTrace, transferTrace, pulseTrace]

/-! ### The busy poll -/

/-- However often it samples, a poll's loop leaves E low and nothing else changed (R75). -/
theorem after_samples (n : Nat) (p : Pins) : p.after (sampleTrace (pollDraws n)) = p.setLevel .e .low := by
  induction n generalizing p with
  | zero => rfl
  | succ n ih =>
    have hcons : sampleTrace (pollDraws (n + 1)) = pulseTrace ++ .r .d7 .high :: sampleTrace (pollDraws n) := rfl
    rw [hcons, after_append, after_cons, ih]; rfl

theorem turnTrace_eq_map (mode : Mode) (d : Dir) : turnTrace mode d = (dataLines mode).map (.dir · d) := by
  cases mode <;> rfl

/-- The pins before a poll makes its lines outputs again (R75). -/
def Pins.polled (p : Pins) (mode : Mode) : Pins :=
  { p.after (turnTrace mode .input) with rs := .low, rw := .high, e := .low }

theorem after_pollTrace (p : Pins) (mode : Mode) (n : Nat) :
    p.after (pollTrace mode n) = (p.polled mode).after (turnTrace mode .output) := by
  rw [pollTrace, after_append, after_append, after_append, after_samples]; rfl

/-- A poll leaves RS = 0, RW = 1 and E = 0, and touches no line of the chip selects or the rows. -/
theorem after_pollTrace_eq (p : Pins) (mode : Mode) (n : Nat) :
    ∃ data, p.after (pollTrace mode n) = { p with rs := .low, rw := .high, e := .low, data := data } := by
  obtain ⟨data, hin⟩ := after_turns_eq (dataLines mode) .input p
  rw [after_pollTrace, turnTrace_eq_map, Pins.polled, turnTrace_eq_map, hin]
  exact after_turns_eq (dataLines mode) .output _

theorem after_poll_level (p : Pins) (mode : Mode) (n : Nat) (i : Fin 8) :
    (p.after (pollTrace mode n)).data[i].level = p.data[i].level := by
  rw [after_pollTrace, turnTrace_eq_map]
  refine (after_turns_level _ .output (p.polled mode) (.data i)).trans ?_
  rw [Pins.polled, turnTrace_eq_map]
  exact after_turns_level (dataLines mode) .input p (.data i)

theorem after_poll_dir (p : Pins) (mode : Mode) (n : Nat) (i : Fin 8) :
    (p.after (pollTrace mode n)).data[i].dir = if i ∈ dataLines mode then .output else p.data[i].dir := by
  rw [after_pollTrace, turnTrace_eq_map, after_turns_dir]
  split
  · rfl
  · next hi =>
    rw [Pins.polled, turnTrace_eq_map]
    exact (after_turns_dir ..).trans (if_neg hi)

/-- Settles O47: a frame's last writes stay, and a poll's lines come back as outputs with their latches. -/
theorem frameAndPollLeaveTheseLevels : Obligations.FrameAndPollLeaveTheseLevels := by
  intro p mode rs b n
  refine ⟨?_, ?_⟩
  · have hdir := after_dir_of_no_turn (frameTrace_no_turn mode rs b) p
    cases mode with
    | fourBit => exact ⟨rfl, rfl, rfl, rfl, rfl, rfl, hdir, by simp, fun _ => after_frame_level_fourBit p rs b⟩
    | eightBit => exact ⟨rfl, rfl, rfl, rfl, rfl, rfl, hdir, fun _ => after_frame_level_eightBit p rs b, by simp⟩
  · have hlevel := after_poll_level p mode n
    have hdir := after_poll_dir p mode n
    obtain ⟨data, hpoll⟩ := after_pollTrace_eq p mode n
    rw [hpoll] at hlevel hdir ⊢
    exact ⟨rfl, rfl, rfl, rfl, rfl, rfl, hlevel, hdir⟩

end Sys2Proof.Machine
end

section
/-! The statements of 20_memory.md about host accesses: what an admitted read returns, and which accesses are refused. -/

namespace Sys2Proof.Machine

/-- Settles O14: `step_of_read` at the three offsets. -/
theorem admittedReadOnlyReturnsItsRegister : Obligations.AdmittedReadOnlyReturnsItsRegister := fun _ _ =>
  ⟨fun ha => step_of_read ha rfl, fun ha => step_of_read ha rfl, fun ha => step_of_read ha rfl⟩

/-- The three registers a read is admitted to (R41). -/
theorem readRegister_isSome_iff (s : State) (off : Nat) :
    (s.readRegister off).isSome ↔ off = 0x04 ∨ off = 0x08 ∨ off = 0x0C := by
  unfold State.readRegister
  repeat' split
  all_goals simp_all

theorem admitted_read_iff (off width : Nat) :
    (Access.read off width).admitted = true ↔ width = 4 ∧ (off = 0x04 ∨ off = 0x08 ∨ off = 0x0C) := by
  simp [Access.admitted, or_assoc]

theorem admitted_write_iff (off width : Nat) (v : Word) :
    (Access.write off width v).admitted = true ↔ width = 4 ∧ off = 0x00 := by
  simp [Access.admitted]

/-- A listed host access is the whole step. -/
theorem step_of_host {s : State} {a : Access} {rest : List Turn} (ha : s.agenda = .host a :: rest) :
    step s = hostAccess exec a { s with agenda := rest } := by
  simp [step, takeTurn, ha]

/-- An access outside the two forms is refused under its own name (R42). -/
theorem hostAccess_of_not_admitted (run : Instr → State → Host.Outcome State Fault Refusal) {a : Access} (s : State)
    (h : ¬a.admitted = true) : hostAccess run a s = .refused (.hostAccess a) := by
  cases a with
  | read off width =>
    rw [admitted_read_iff, ← readRegister_isSome_iff s] at h
    by_cases hw : width = 4
    · have hnone : s.readRegister off = none := by
        rw [← Option.not_isSome_iff_eq_none]
        exact fun hsome => h ⟨hw, hsome⟩
      rw [hostAccess, if_pos hw, hnone]
    · exact if_neg hw
  | write off width v =>
    rw [admitted_write_iff, and_comm] at h
    exact if_neg h

/-- Whatever word the host writes to CMD, the block goes on (R66, R96). -/
theorem handCommand_next (w : Word) (s : State) : ∃ t, handCommand exec w s = .next t := by
  unfold handCommand
  split
  · exact ⟨_, rfl⟩
  · next hb =>
    have hs : s.seq = .idle := by simpa [busy_iff_ne_idle] using hb
    split
    · exact ⟨_, rfl⟩
    · next i _ => exact ⟨_, exec_of_idle i s hs⟩

theorem hostAccess_of_admitted {a : Access} (s : State) (h : a.admitted = true) : ∃ t, hostAccess exec a s = .next t := by
  cases a with
  | read off width =>
    obtain ⟨rfl, hoff⟩ := (admitted_read_iff off width).mp h
    obtain ⟨v, hv⟩ := Option.isSome_iff_exists.mp ((readRegister_isSome_iff s off).mpr hoff)
    exact ⟨_, by rw [hostAccess, if_pos rfl, hv]⟩
  | write off width v =>
    obtain ⟨rfl, rfl⟩ := (admitted_write_iff off width v).mp h
    exact handCommand_next v s

/-- Settles O15: only a host access can be refused, and it is exactly when it is not admitted. -/
theorem onlyInadmissibleAccessesAreRefused : Obligations.OnlyInadmissibleAccessesAreRefused := by
  intro s
  refine ⟨fun off width rest ha hbad => ?_, fun off width v rest ha hbad => ?_, fun hgood => ?_⟩
  · rw [step_of_host ha, hostAccess_of_not_admitted]
    rwa [admitted_read_iff]
  · rw [step_of_host ha, hostAccess_of_not_admitted]
    rwa [admitted_write_iff]
  · cases ha : s.agenda with
    | nil => exact ⟨_, step_of_empty_agenda ha⟩
    | cons x rest =>
      cases x with
      | engine => exact ⟨_, step_of_engine_next (.inr (by rw [ha]; rfl))⟩
      | host a => rw [step_of_host ha]; exact hostAccess_of_admitted _ (hgood a rest ha)
      | reset => exact ⟨_, step_of_reset ha⟩

end Sys2Proof.Machine
end

section
/-! The statements of 20_memory.md about the LCD bus: what the lines carry at each rise of the enable line. -/

namespace Sys2Proof.Machine

/-! ### The pins at a rise of E in a frame -/

/-- E is high in a command transfer (RS = 0, RW = 0), and the lines of DA(MODE) carry the bits of `b` that stand `shift`
below them (R44, R45, R64). -/
def Pins.TransfersCommand (q : Pins) (mode : Mode) (b : Byte) (shift : Nat) : Prop :=
  q.e = .high ∧ q.rs = .low ∧ q.rw = .low ∧
    ∀ i ∈ dataLines mode, q.data[i].level = levelOf (b.getLsbD (i.val - shift))

/-- Writing data lines touches nothing else. -/
theorem after_dataWrites_eq (lines : List (Fin 8)) (f : Fin 8 → Level) (p : Pins) :
    ∃ data, p.after (lines.map fun k => .w (.data k) (f k)) = { p with data := data } := by
  induction lines generalizing p with
  | nil => exact ⟨p.data, rfl⟩
  | cons k lines ih => exact ih (p.setLevel (.data k) (f k))

/-- Once RS and RW select a command, writing the data lines and raising E transfers it. -/
theorem after_rise_transfersCommand {p : Pins} (hrs : p.rs = .low) (hrw : p.rw = .low) (mode : Mode) (b : Byte)
    (shift : Nat) : (p.after (busWrites mode b shift ++ [Event.w .e .high])).TransfersCommand mode b shift := by
  have hlevel := after_busWrites_level mode b shift p
  obtain ⟨data, hwrites⟩ : ∃ data, p.after (busWrites mode b shift) = { p with data := data } :=
    after_dataWrites_eq (dataLines mode) (fun k => levelOf (b.getLsbD (k.val - shift))) p
  rw [hwrites] at hlevel
  rw [after_append, hwrites]
  exact ⟨rfl, hrs, hrw, fun i hi => (hlevel i).trans (if_pos hi)⟩

theorem length_frameTrace_eightBit (rs : Level) (b : Byte) : (frameTrace .eightBit rs b).length = 14 := rfl

theorem length_frameTrace_fourBit (rs : Level) (b : Byte) : (frameTrace .fourBit rs b).length = 18 := rfl

/-- The one rise of an EIGHT_BIT frame is its eleventh event. -/
theorem eightBit_frame_transfers (p : Pins) (b : Byte) :
    (p.after ((frameTrace .eightBit .low b).take 11)).TransfersCommand .eightBit b 0 := by
  have htake : (frameTrace .eightBit .low b).take 11 =
      [Event.w .rs .low, .w .rw .low] ++ (busWrites .eightBit b 0 ++ [Event.w .e .high]) := rfl
  rw [htake, after_append]
  exact after_rise_transfersCommand rfl rfl .eightBit b 0

/-- The rises of a FOUR_BIT frame are its seventh and its fifteenth event, the high nibble first. -/
theorem fourBit_frame_transfers (p : Pins) (b : Byte) :
    (p.after ((frameTrace .fourBit .low b).take 7)).TransfersCommand .fourBit b 0 ∧
    (p.after ((frameTrace .fourBit .low b).take 15)).TransfersCommand .fourBit b 4 := by
  have hhigh : (frameTrace .fourBit .low b).take 7 =
      [Event.w .rs .low, .w .rw .low] ++ (busWrites .fourBit b 0 ++ [Event.w .e .high]) := rfl
  have hlow : (frameTrace .fourBit .low b).take 15 =
      ([Event.w .rs .low, .w .rw .low] ++ busWrites .fourBit b 0 ++ pulseTrace) ++
        (busWrites .fourBit b 4 ++ [Event.w .e .high]) := rfl
  rw [hhigh, hlow, after_append p [_, _], after_append p (_ ++ pulseTrace)]
  exact ⟨after_rise_transfersCommand rfl rfl .fourBit b 0, after_rise_transfersCommand rfl rfl .fourBit b 4⟩

/-- SEND_CMD begins with its frame in both modes (R78). -/
theorem exists_sendCmdScript_eq_frame_append (mode : Mode) (code : Byte) :
    ∃ rest, sendCmdScript mode code = frame mode .low code ++ rest := by
  cases mode with
  | fourBit => exact ⟨busyPoll .fourBit, rfl⟩
  | eightBit => exact ⟨[], (List.append_nil _).symm⟩

/-- While SEND_CMD's frame lasts the pins are as its trace so far leaves them, whatever the agents answer. -/
theorem sendCmd_pins_during_frame {s : State} (hs : s.seq = .idle) (ha : s.agenda = []) (code : Byte) :
    ∃ t, exec (.sendCmd code) s = .next t ∧ ∀ k < (frameTrace s.mode .low code).length,
      ∃ u, runs k t = .next u ∧ u.pins = s.pins.after ((frameTrace s.mode .low code).take k) := by
  obtain ⟨rest, hscript⟩ := exists_sendCmdScript_eq_frame_append s.mode code
  refine ⟨_, exec_of_idle _ s hs, fun k hk => ?_⟩
  obtain ⟨hevents, _⟩ := goes_frame s ha s.mode .low code (encode (.sendCmd code)) rest none none
  obtain ⟨u, hu, _, _, hpins⟩ := hevents k hk
  rw [← hscript] at hu
  exact ⟨u, hu, hpins⟩

/-- Settles O44: the rises of E stand at these places of the frame's trace. -/
theorem sendCmdFramePulsesCarryItsByte : Obligations.SendCmdFramePulsesCarryItsByte := by
  intro s code hs ha
  obtain ⟨t, hexec, hframe⟩ := sendCmd_pins_during_frame hs ha code
  refine ⟨t, hexec, fun hm => ?_, fun hm => ?_⟩ <;> rw [hm] at hframe
  · rw [length_frameTrace_eightBit] at hframe
    obtain ⟨u, hu, hpins⟩ := hframe 11 (by decide)
    obtain ⟨he, hrs, hrw, hdata⟩ := hpins ▸ eightBit_frame_transfers s.pins code
    exact ⟨u, hu, he, hrs, hrw, fun i => hdata i (mem_dataLines_eightBit i)⟩
  · rw [length_frameTrace_fourBit] at hframe
    obtain ⟨hhigh, hlow⟩ := fourBit_frame_transfers s.pins code
    obtain ⟨u, hu, hpins⟩ := hframe 7 (by decide)
    obtain ⟨v, hv, hpins'⟩ := hframe 15 (by decide)
    obtain ⟨he, hrs, hrw, hdata⟩ := hpins ▸ hhigh
    obtain ⟨he', hrs', hrw', hdata'⟩ := hpins' ▸ hlow
    exact ⟨⟨u, hu, he, hrs, hrw, fun i hi => hdata i ((mem_dataLines_fourBit_iff i).mpr hi)⟩,
      v, hv, he', hrs', hrw', fun i hi => hdata' i ((mem_dataLines_fourBit_iff i).mpr hi)⟩

/-! ### The bus cycles of a whole operation -/

/-- The data lines are outputs and the chip selects are at these levels. -/
structure Pins.BusReady (p : Pins) (mode : Mode) (cs1 cs2 : Level) : Prop where
  outputs : ∀ i ∈ dataLines mode, p.data[i].dir = .output
  cs1_eq : p.cs1 = cs1
  cs2_eq : p.cs2 = cs2

/-- From pins ready with the chip selects `a`, `b` the trace makes exactly these bus cycles, and it leaves the pins ready
with the chip selects `a'`, `b'`. -/
def Carries (mode : Mode) (a b : Level) (tr : List Event) (cycles : List BusCycle) (a' b' : Level) : Prop :=
  ∀ p : Pins, p.BusReady mode a b → busCycles mode p tr = cycles ∧ (p.after tr).BusReady mode a' b'

theorem Carries.append {mode : Mode} {a b a' b' a'' b'' : Level} {tr tr' : List Event} {cycles cycles' : List BusCycle}
    (h : Carries mode a b tr cycles a' b') (h' : Carries mode a' b' tr' cycles' a'' b'') :
    Carries mode a b (tr ++ tr') (cycles ++ cycles') a'' b'' := by
  intro p hp
  obtain ⟨hc, hr⟩ := h p hp
  obtain ⟨hc', hr'⟩ := h' _ hr
  rw [busCycles_append, after_append, hc, hc']
  exact ⟨rfl, hr'⟩

theorem Carries.flatMap {α : Type} {mode : Mode} {a b : Level} {f : α → List Event} {g : α → List BusCycle}
    (h : ∀ x, Carries mode a b (f x) (g x) a b) (l : List α) :
    Carries mode a b (l.flatMap f) (l.flatMap g) a b := by
  induction l with
  | nil => exact fun p hp => ⟨rfl, hp⟩
  | cons x l ih =>
    rw [List.flatMap_cons, List.flatMap_cons]
    exact (h x).append ih

theorem carries_delay (mode : Mode) (a b : Level) (t : Delay) : Carries mode a b [.dly t] [] a b :=
  fun _ hp => ⟨rfl, hp⟩

theorem carries_frame (mode : Mode) (a b rs : Level) (byte : Byte) :
    Carries mode a b (frameTrace mode rs byte) (writeCycles mode a b rs byte) a b := by
  rintro p ⟨hout, rfl, rfl⟩
  obtain ⟨hcycles, hout', hcs1, hcs2⟩ := busCycles_frame mode p hout rs byte
  exact ⟨hcycles, hout', hcs1, hcs2⟩

theorem busCycles_of_no_rise (mode : Mode) {tr : List Event} (h : ∀ e ∈ tr, e ≠ .w .e .high) (p : Pins) :
    busCycles mode p tr = [] := by
  induction tr generalizing p with
  | nil => rfl
  | cons e tr ih =>
    obtain ⟨he, htr⟩ := List.forall_mem_cons.mp h
    rw [busCycles, if_neg he, ih htr]; rfl

theorem turnTrace_no_rise (mode : Mode) (d : Dir) : ∀ e ∈ turnTrace mode d, e ≠ .w .e .high := by
  cases mode <;> simp [turnTrace]

/-- Each iteration of a poll's loop pulses E once and changes no other line (R75). -/
theorem busCycles_sampleTrace (mode : Mode) (samples : List Level) (p : Pins) :
    busCycles mode p (sampleTrace samples) = List.replicate samples.length (p.busCycle mode) := by
  induction samples generalizing p with
  | nil => rfl
  | cons l samples ih =>
    have hcons : sampleTrace (l :: samples) = (pulseTrace ++ [Event.r .d7 l]) ++ sampleTrace samples := rfl
    rw [hcons, busCycles_append, ih]; rfl

/-- The pins a poll samples at stand for a status read (R64, R75). -/
theorem busCycle_of_polling (p : Pins) (mode : Mode) :
    (p.after (turnTrace mode .input ++ [Event.w .rs .low, .w .rw .high])).busCycle mode = statusCycle mode p.cs1 p.cs2 := by
  have hdir := after_turns_dir (dataLines mode) .input p
  obtain ⟨data, hin⟩ := after_turns_eq (dataLines mode) .input p
  rw [after_append, turnTrace_eq_map]
  rw [hin] at hdir ⊢
  have hdata : ∀ i ∈ dataLines mode, (if data[i].dir = .output then some data[i].level else none) = none := fun i hi =>
    if_neg (by rw [(hdir i).trans (if_pos hi)]; decide)
  exact congrArg (BusCycle.mk .low .high p.cs1 p.cs2) (List.map_congr_left hdata)

theorem busCycles_pollTrace (mode : Mode) (p : Pins) (n : Nat) :
    busCycles mode p (pollTrace mode n) = List.replicate (n + 1) (statusCycle mode p.cs1 p.cs2) := by
  have hstart : ∀ e ∈ turnTrace mode .input ++ [Event.w .rs .low, .w .rw .high], e ≠ .w .e .high := by
    cases mode <;> simp [turnTrace]
  have hlen : (pollDraws n).length = n + 1 := by simp [pollDraws]
  rw [pollTrace, busCycles_append, busCycles_append, busCycles_of_no_rise mode hstart,
    busCycles_of_no_rise mode (turnTrace_no_rise mode .output), busCycles_sampleTrace, busCycle_of_polling, hlen,
    List.nil_append, List.append_nil]

theorem carries_poll (mode : Mode) (a b : Level) (n : Nat) :
    Carries mode a b (pollTrace mode n) (List.replicate (n + 1) (statusCycle mode a b)) a b := by
  rintro p ⟨_, rfl, rfl⟩
  have hdir := after_poll_dir p mode n
  obtain ⟨data, hpoll⟩ := after_pollTrace_eq p mode n
  refine ⟨busCycles_pollTrace mode p n, fun i hi => (hdir i).trans (if_pos hi), ?_, ?_⟩ <;> rw [hpoll]

/-- The levels CS_SELECT gives the two lines, whatever they were (R58, R83). -/
theorem carries_select (mode : Mode) (a b : Level) (chip : BitVec 2) :
    Carries mode a b (selectTrace chip) [] (if chip = 0b01#2 then .high else .low)
      (if chip = 0b10#2 then .high else .low) := by
  rintro p ⟨hout, _, _⟩
  unfold selectTrace
  by_cases h1 : chip = 0b01#2
  · subst h1; exact ⟨rfl, hout, rfl, rfl⟩
  · by_cases h2 : chip = 0b10#2
    · subst h2; exact ⟨rfl, hout, rfl, rfl⟩
    · simp only [if_neg h1, if_neg h2]; exact ⟨rfl, hout, rfl, rfl⟩

theorem carries_release (mode : Mode) (a b : Level) :
    Carries mode a b [.w .cs1 .low, .w .cs2 .low] [] .low .low :=
  fun _ hp => ⟨rfl, hp.outputs, rfl, rfl⟩

/-- The command write cycles of a chip-targeted command, with the chip selects as CHIP says (R58, R84). -/
def chipCycles (mode : Mode) (chip : BitVec 2) (code : Byte) : List BusCycle :=
  writeCycles mode (if chip = 0b01#2 then .high else .low) (if chip = 0b10#2 then .high else .low) .low code

theorem carries_chipTrace (mode : Mode) (a b : Level) (code : Byte) (chip : BitVec 2) :
    Carries mode a b (chipTrace mode code chip) (chipCycles mode chip code) .low .low := by
  have h := ((carries_select mode a b chip).append (carries_frame mode _ _ .low code)).append (carries_release mode _ _)
  rwa [List.append_nil, List.nil_append] at h

/-- INIT in FOUR_BIT: each command byte, and the status reads of its poll (R77). -/
theorem carries_polledFrames (a b : Level) (codes : List Byte) (ones : List Nat) :
    Carries .fourBit a b (polledFrames codes ones)
      ((codes.zip ones).flatMap fun x =>
        writeCycles .fourBit a b .low x.1 ++ List.replicate (x.2 + 1) (statusCycle .fourBit a b)) a b := by
  unfold polledFrames
  refine Carries.flatMap (fun x => ?_) _
  exact (carries_frame .fourBit a b .low x.1).append (carries_poll .fourBit a b x.2)

/-- A run from launched pins makes the bus cycles its trace carries. -/
theorem Performs.busCycles_eq {i : Instr} {s : State} {tr : List Event} {ds : List Level} {cycles : List BusCycle}
    {a b : Level} (h : Performs i s tr ds) (hs : s.seq = .idle) (hl : s.launched)
    (hc : Carries s.mode s.pins.cs1 s.pins.cs2 tr cycles a b) :
    RunsWith i s fun tr => busCycles s.mode s.pins tr = cycles :=
  h.runsWith hs (hc s.pins ⟨hl, rfl, rfl⟩).1

/-- Settles O45: the trace `Performs` names for each operation, cut into frames, polls and chip selects. -/
theorem everyEnablePulseIsTheBusCycleOfItsRule : Obligations.EveryEnablePulseIsTheBusCycleOfItsRule := by
  intro s hs ha hl bytes poll toChip
  have hframe := fun rs b => carries_frame s.mode s.pins.cs1 s.pins.cs2 rs b
  have hpoll := fun n => carries_poll s.mode s.pins.cs1 s.pins.cs2 n
  have hchip := fun a b code chip => carries_chipTrace s.mode a b code chip
  refine ⟨fun hm => ⟨?_, fun code => ?_⟩, fun hm => ⟨fun ones rest hlen hd => ?_, fun code n rest hd => ?_⟩,
    fun n rest hd => ⟨fun ch => ?_, ?_, ?_⟩, fun code chip => ?_, fun page column chip => ?_⟩
  · have hinit := performs_init_eightBit hs ha hm
    rw [← hm] at hinit
    exact hinit.busCycles_eq hs hl ((carries_delay _ _ _ .powerUp).append (Carries.flatMap (hframe .low) _))
  · have hsend := performs_sendCmd_eightBit hs ha hm code
    rw [← hm] at hsend
    exact hsend.busCycles_eq hs hl (hframe .low code)
  · have hcarries := (carries_delay .fourBit s.pins.cs1 s.pins.cs2 .powerUp).append
      (carries_polledFrames _ _ s.initSeq4 ones)
    have hinit := performs_init_fourBit hs ha hm hlen hd
    rw [← hm] at hcarries
    exact hinit.busCycles_eq hs hl hcarries
  · have hsend := performs_sendCmd_fourBit hs ha hm code hd
    rw [← hm] at hsend
    exact hsend.busCycles_eq hs hl ((hframe .low code).append (hpoll n))
  · exact (performs_printChar hs ha ch hd).busCycles_eq hs hl ((hframe .high ch).append (hpoll n))
  · exact (performs_clear hs ha hd).busCycles_eq hs hl ((hframe .low clearByte).append (hpoll n))
  · exact (performs_waitBusy hs ha hd).busCycles_eq hs hl (hpoll n)
  · exact (performs_cmdToChip hs ha code chip).busCycles_eq hs hl (hchip _ _ code chip)
  · exact (performs_setCursor hs ha page column chip).busCycles_eq hs hl
      ((hchip _ _ (setPageByte page) chip).append (hchip _ _ (setColumnByte column) chip))

end Sys2Proof.Machine
end

section
/-! The statements of 30_encoding.md about the command word: encoding and decoding are inverse, and which words are legal. -/

namespace Sys2Proof

/-! ### From a word's bytes -/

theorem wordOfLanes_lane (w : Word) : wordOfLanes (lane w 0) (lane w 1) (lane w 2) (lane w 3) = w := by
  simp only [wordOfLanes, lane, BitVec.extractLsb'_append_extractLsb'_eq_extractLsb']
  exact BitVec.extractLsb'_eq_self

/-- A stream that begins with a word's lanes gives what the word stands for and the rest (R43). -/
theorem decodeBytes_lanes_append (w : Word) (rest : List Byte) :
    decodeBytes (lanes w ++ rest) = (decode w).map fun i => (i, rest) := by
  have hbytes : decodeBytes (lanes w ++ rest) =
      (decode (wordOfLanes (lane w 0) (lane w 1) (lane w 2) (lane w 3))).map fun i => (i, rest) := rfl
  rw [hbytes, wordOfLanes_lane]

/-- Settles O1: `decode_encode`, and the lanes of a word put together again. -/
theorem decodeOfEncodeReturnsTheInstruction : Obligations.DecodeOfEncodeReturnsTheInstruction := by
  intro i rest _
  refine ⟨decode_encode i, ?_⟩
  rw [encodeBytes, decodeBytes_lanes_append, decode_encode]
  rfl

/-! ### A word cut into its fields -/

theorem append_eq_append_iff {m n : Nat} {x x' : BitVec m} {y y' : BitVec n} :
    x ++ y = x' ++ y' ↔ x = x' ∧ y = y' := by
  refine ⟨fun h => ⟨?_, ?_⟩, fun ⟨hx, hy⟩ => by rw [hx, hy]⟩
  · simpa only [BitVec.extractLsb'_append_eq_left] using congrArg (BitVec.extractLsb' n m) h
  · simpa only [BitVec.extractLsb'_append_eq_right] using congrArg (BitVec.extractLsb' 0 n) h

/-- RES, CHIP and COLUMN side by side (R54). -/
theorem res_chip_column_eq (w : Word) : w.extractLsb' 18 10 ++ chipField w ++ columnField w = w.extractLsb' 8 20 := by
  simp only [chipField, columnField, BitVec.extractLsb'_append_extractLsb'_eq_extractLsb']

/-- RES, CHIP, COLUMN and ARG side by side (R54). -/
theorem res_chip_column_arg_eq (w : Word) :
    w.extractLsb' 18 10 ++ chipField w ++ columnField w ++ argField w = w.extractLsb' 0 28 := by
  simp only [chipField, columnField, argField, BitVec.extractLsb'_append_extractLsb'_eq_extractLsb']

/-- A word is its five fields (R54). -/
theorem fields_append_eq (w : Word) :
    w.extractLsb' 28 4 ++ w.extractLsb' 18 10 ++ chipField w ++ columnField w ++ argField w = w := by
  simp only [chipField, columnField, argField, BitVec.extractLsb'_append_extractLsb'_eq_extractLsb']
  exact BitVec.extractLsb'_eq_self

theorem assembleFields_eq_iff (op : BitVec 4) (chip : BitVec 2) (column arg : Byte) (w : Word) :
    assembleFields op chip column arg = w ↔ w.extractLsb' 28 4 = op ∧ w.extractLsb' 18 10 = 0#10 ∧
      chipField w = chip ∧ columnField w = column ∧ argField w = arg := by
  have hcut : assembleFields op chip column arg = w ↔
      op ++ 0#10 ++ chip ++ column ++ arg =
        w.extractLsb' 28 4 ++ w.extractLsb' 18 10 ++ chipField w ++ columnField w ++ argField w := by
    rw [fields_append_eq]; rfl
  rw [hcut, append_eq_append_iff, append_eq_append_iff, append_eq_append_iff, append_eq_append_iff]
  rw [and_assoc, and_assoc, and_assoc, eq_comm (a := op), eq_comm (a := 0#10), eq_comm (a := chip),
    eq_comm (a := column), eq_comm (a := arg)]

theorem extract_fields_zero_iff (w : Word) :
    w.extractLsb' 8 20 = 0#20 ↔ w.extractLsb' 18 10 = 0#10 ∧ chipField w = 0#2 ∧ columnField w = 0#8 := by
  have hzero : (0#20 : BitVec 20) = 0#10 ++ 0#2 ++ 0#8 := rfl
  rw [← res_chip_column_eq, hzero, append_eq_append_iff, append_eq_append_iff, and_assoc]

theorem extract_operands_zero_iff (w : Word) :
    w.extractLsb' 0 28 = 0#28 ↔
      w.extractLsb' 18 10 = 0#10 ∧ chipField w = 0#2 ∧ columnField w = 0#8 ∧ argField w = 0#8 := by
  have hzero : (0#28 : BitVec 28) = 0#10 ++ 0#2 ++ 0#8 ++ 0#8 := rfl
  rw [← res_chip_column_arg_eq, hzero, append_eq_append_iff, append_eq_append_iff, append_eq_append_iff, and_assoc,
    and_assoc]

/-! ### The rows of R55 -/

/-- The bits of a word that a row does not mask, under the row's OP. -/
theorem pattern_or_unmasked (w : Word) (op : BitVec 4) (cm : BitVec 2) (lm am : Byte) :
    assembleFields op 0 0 0 ||| (w &&& ~~~(0xF#4 ++ 0x3FF#10 ++ cm ++ lm ++ am)) =
      assembleFields op (chipField w &&& ~~~cm) (columnField w &&& ~~~lm) (argField w &&& ~~~am) := by
  have hcut : (op ++ 0#10 ++ 0#2 ++ 0#8 ++ 0#8) |||
      ((w.extractLsb' 28 4 ++ w.extractLsb' 18 10 ++ chipField w ++ columnField w ++ argField w) &&&
        ~~~(0xF#4 ++ 0x3FF#10 ++ cm ++ lm ++ am)) =
      op ++ 0#10 ++ (chipField w &&& ~~~cm) ++ (columnField w &&& ~~~lm) ++ (argField w &&& ~~~am) := by
    simp only [BitVec.not_append, BitVec.and_append, BitVec.or_append, BitVec.zero_or]
    simp
  rw [fields_append_eq] at hcut
  exact hcut

/-- The operation a row reads from a word is encoded as the row's pattern with the word's unmasked bits. -/
theorem encode_build (w : Word) : ∀ r ∈ opRows, encode (r.build w) = r.pattern ||| (w &&& ~~~r.mask) := by
  have hrow := pattern_or_unmasked w
  have hchip : chipField w &&& 3#2 = chipField w := BitVec.and_allOnes
  have hbyte : ∀ b : Byte, b &&& 255#8 = b := fun _ => BitVec.and_allOnes
  simp only [opRows, List.forall_mem_cons]
  refine ⟨?init, ?sendCmd, ?printChar, ?clear, ?setCursor, ?cmdToChip, ?waitBusy, ?scanKey, by simp⟩
  case init => exact ((hrow 1 3 255 255).trans (by simp [encode, Instr.op])).symm
  case sendCmd => exact ((hrow 2 3 255 0).trans (by simp [encode, Instr.op, hbyte])).symm
  case printChar => exact ((hrow 3 3 255 0).trans (by simp [encode, Instr.op, hbyte])).symm
  case clear => exact ((hrow 4 3 255 255).trans (by simp [encode, Instr.op])).symm
  case setCursor => exact ((hrow 5 0 0 0).trans (by simp [encode, Instr.op, hchip, hbyte])).symm
  case cmdToChip => exact ((hrow 6 0 255 0).trans (by simp [encode, Instr.op, hchip, hbyte])).symm
  case waitBusy => exact ((hrow 7 3 255 255).trans (by simp [encode, Instr.op])).symm
  case scanKey => exact ((hrow 8 3 255 255).trans (by simp [encode, Instr.op])).symm

/-- A row that matches a word reads from it the operation that the word encodes. -/
theorem encode_build_of_matches {r : OpRow} (hr : r ∈ opRows) {w : Word} (h : r.matches w = true) :
    encode (r.build w) = w := by
  rw [encode_build w r hr, ← eq_of_beq h, ← BitVec.and_or_distrib_left, BitVec.or_not_self, BitVec.and_allOnes]

/-- Settles O2: the row that decodes the word matches it. -/
theorem encodeOfDecodeReturnsTheWord : Obligations.EncodeOfDecodeReturnsTheWord := by
  intro w i h
  obtain ⟨r, hfind, rfl⟩ := Option.map_eq_some_iff.mp h
  have hmatch : r.matches w = true := List.find?_some (p := fun r : OpRow => r.matches w) hfind
  exact encode_build_of_matches (List.mem_of_find?_eq_some hfind) hmatch

theorem legal_eq_isSome_decode (w : Word) : legal w = (decode w).isSome := by
  rw [legal, decode, Option.isSome_map, List.isSome_find?]

/-- The words that decode are the words of the operations. -/
theorem isSome_decode_iff (w : Word) : (decode w).isSome = true ↔ ∃ i, encode i = w := by
  rw [Option.isSome_iff_exists]
  exact exists_congr fun i => ⟨encodeOfDecodeReturnsTheWord w i, fun h => h ▸ decode_encode i⟩

/-- The rows' OPs differ, and every row's mask keeps OP, so no two rows match one word (R55). -/
theorem countP_matches_le_one (w : Word) : (opRows.countP fun r => r.matches w) ≤ 1 := by
  have hmask : ∀ r ∈ opRows, r.mask.extractLsb' 28 4 = 0xF#4 := by decide
  have hops : (opRows.map fun r => r.pattern.extractLsb' 28 4).Nodup := by decide
  have hop : ∀ r ∈ opRows, r.matches w = true → (r.pattern.extractLsb' 28 4 == w.extractLsb' 28 4) = true := by
    intro r hr h
    rw [beq_iff_eq, ← eq_of_beq h, BitVec.extractLsb'_and, hmask r hr]
    exact BitVec.and_allOnes
  calc (opRows.countP fun r => r.matches w)
      ≤ opRows.countP fun r => r.pattern.extractLsb' 28 4 == w.extractLsb' 28 4 := List.countP_mono_left hop
    _ = (opRows.map fun r => r.pattern.extractLsb' 28 4).count (w.extractLsb' 28 4) := by
        rw [List.count, List.countP_map]; rfl
    _ ≤ 1 := List.nodup_iff_count_le_one.mp hops _

/-- Settles O3: an operation's word is its fields, and a word of one of the four shapes is that of the operation with its
operands. -/
theorem legalWordsAreExactlyTheEightForms : Obligations.LegalWordsAreExactlyTheEightForms := by
  refine ⟨fun w => ?_, legal_eq_isSome_decode, countP_matches_le_one⟩
  have hcolumn : w.extractLsb' 8 8 = columnField w := rfl
  rw [isSome_decode_iff, extract_operands_zero_iff, extract_fields_zero_iff, hcolumn]
  constructor
  · rintro ⟨i, hi⟩
    cases i <;> rw [encode, Instr.op, assembleFields_eq_iff] at hi <;> simp [hi]
  · rintro (⟨hop | hop | hop | hop, hzero⟩ | ⟨hop | hop, hres, hchip, hcol⟩ | ⟨hop, hres⟩ | ⟨hop, hres, hcol⟩)
    · exact ⟨.init, (assembleFields_eq_iff ..).mpr ⟨hop, hzero⟩⟩
    · exact ⟨.clear, (assembleFields_eq_iff ..).mpr ⟨hop, hzero⟩⟩
    · exact ⟨.waitBusy, (assembleFields_eq_iff ..).mpr ⟨hop, hzero⟩⟩
    · exact ⟨.scanKey, (assembleFields_eq_iff ..).mpr ⟨hop, hzero⟩⟩
    · exact ⟨.sendCmd (argField w), (assembleFields_eq_iff ..).mpr ⟨hop, hres, hchip, hcol, rfl⟩⟩
    · exact ⟨.printChar (argField w), (assembleFields_eq_iff ..).mpr ⟨hop, hres, hchip, hcol, rfl⟩⟩
    · exact ⟨.setCursor (argField w) (columnField w) (chipField w),
        (assembleFields_eq_iff ..).mpr ⟨hop, hres, rfl, rfl, rfl⟩⟩
    · exact ⟨.cmdToChip (argField w) (chipField w), (assembleFields_eq_iff ..).mpr ⟨hop, hres, rfl, hcol, rfl⟩⟩

end Sys2Proof
end

section
/-! The statements of 30_encoding.md about the assembler: the word of each line, and the pseudo-instructions. -/

namespace Sys2Proof.Machine

/-! ### Words as numbers -/

theorem toNat_append_eq_add {m n : Nat} (x : BitVec m) (y : BitVec n) : (x ++ y).toNat = x.toNat * 2 ^ n + y.toNat := by
  rw [BitVec.toNat_append, ← Nat.shiftLeft_add_eq_or_of_lt y.isLt, Nat.shiftLeft_eq]

/-- A word is the sum of its fields in their places (R54). -/
theorem assembleFields_eq_ofNat (op : BitVec 4) (chip : BitVec 2) (column arg : Byte) :
    assembleFields op chip column arg =
      BitVec.ofNat 32 (op.toNat * 0x10000000 + chip.toNat * 0x10000 + column.toNat * 0x100 + arg.toNat) := by
  have hsum : (assembleFields op chip column arg).toNat =
      op.toNat * 0x10000000 + chip.toNat * 0x10000 + column.toNat * 0x100 + arg.toNat := by
    rw [assembleFields, toNat_append_eq_add, toNat_append_eq_add, toNat_append_eq_add, toNat_append_eq_add,
      BitVec.toNat_ofNat]
    omega
  rw [← hsum, BitVec.ofNat_toNat, BitVec.setWidth_eq]

theorem toNat_operandByte {n : Nat} (h : n < 256) : (operandByte n).toNat = n :=
  (BitVec.toNat_ofNat n 8).trans (Nat.mod_eq_of_lt h)

/-- The names of R61 as numbers. -/
theorem toNat_chipOfName {chip : ChipName} {k : Nat}
    (h : (chip, k) ∈ [(ChipName.cs1, 0b01), (.cs2, 0b10), (.chip0, 0b00), (.chip3, 0b11)]) :
    (chipOfName chip).toNat = k := by
  cases chip <;> simp at h <;> exact h.symm

/-! ### Lines -/

theorem assembleLine_of_wellFormed {line : AsmLine} (h : line.wellFormed = true) :
    assembleLine line = some ((expandLine line).map encode) := if_pos h

theorem assembleLine_of_not_wellFormed {line : AsmLine} (h : line.wellFormed = false) : assembleLine line = none :=
  if_neg (by rw [h]; exact Bool.false_ne_true)

/-- Settles O52: an accepted line's word is the sum of its fields, and a number from 256 on fits no operand. -/
theorem assemblerGivesEachLineItsWord : Obligations.AssemblerGivesEachLineItsWord := by
  refine ⟨fun n m chip k hn hm hk => ?_, fun n m chip hn => ?_⟩
  · have hword := assembleFields_eq_ofNat
    have hn' := toNat_operandByte hn
    have hm' := toNat_operandByte hm
    have hk' := toNat_chipOfName hk
    refine ⟨rfl, ?sendCmd, ?printChar, rfl, ?setCursor, ?cmdToChip, rfl, rfl⟩
    all_goals
      rw [assembleLine_of_wellFormed (by simp [AsmLine.wellFormed, hn, hm])]
      simp [expandLine, encode, Instr.op, hword, hn', hm', hk']
  · refine ⟨?_, ?_, ?_, ?_, ?_⟩ <;> exact assembleLine_of_not_wellFormed (by simp [AsmLine.wellFormed, hn])

/-! ### Pseudo-instructions -/

theorem encode_printChar (x : Byte) : encode (.printChar x) = 0x30000000#32 ||| x.zeroExtend 32 := by
  have hhigh : (0x3#4 ++ 0#10 ++ 0#2 ++ 0#8 : BitVec 24) = 0x300000#24 := rfl
  have hpattern : 0x30000000#32 = 0x300000#24 ++ 0#8 := rfl
  have hzero : x.zeroExtend 32 = 0#24 ++ x := BitVec.setWidth_eq_append (by decide)
  calc encode (.printChar x) = 0x300000#24 ++ x := congrArg (· ++ x) hhigh
    _ = (0x300000#24 ++ 0#8) ||| (0#24 ++ x) := by rw [BitVec.or_append, BitVec.or_zero, BitVec.zero_or]
    _ = 0x30000000#32 ||| x.zeroExtend 32 := by rw [hpattern, hzero]

/-- The line's words are those of the bytes before the first 0x00 (R62). -/
theorem assembleLine_printString (text : List Byte) :
    assembleLine (.printString text) =
      some ((text.takeWhile fun b => b != 0x00#8).map fun x => 0x30000000#32 ||| x.zeroExtend 32) := by
  rw [assembleLine_of_wellFormed rfl, expandLine, List.map_map]
  exact congrArg some (List.map_congr_left fun x _ => encode_printChar x)

/-- Settles O51: `takeWhile` keeps the bytes that are not 0x00 and stops at the one that is. -/
theorem printStringStopsAtTheFirstZero : Obligations.PrintStringStopsAtTheFirstZero := by
  intro a b ha
  have hkeep : ∀ x ∈ a, (x != 0x00#8) = true := fun x hx => bne_iff_ne.mpr (ha x hx)
  constructor
  · rw [assembleLine_printString, List.takeWhile_append_of_pos hkeep, List.takeWhile_cons_of_neg (by decide),
      List.append_nil]
  · rw [assembleLine_printString, List.takeWhile_eq_self_iff.mpr hkeep]

theorem setPageByte_operandByte (page : Nat) :
    setPageByte (operandByte page) = BitVec.ofNat 8 (0xB8 ||| (page &&& 0x07)) := by
  rw [BitVec.ofNat_or, BitVec.ofNat_and]; rfl

theorem setColumnByte_operandByte (column : Nat) :
    setColumnByte (operandByte column) = BitVec.ofNat 8 (0x40 ||| (column &&& 0x7F)) := by
  rw [BitVec.ofNat_or, BitVec.ofNat_and]; rfl

/-- Settles O50: the sequences are put together from the same parts, and the assembler masks a byte as it masks a number. -/
theorem setCursorAndClearAreTheirTwoParts : Obligations.SetCursorAndClearAreTheirTwoParts := by
  refine ⟨fun mode codes page column chip => ?_, fun _ => rfl, fun _ => rfl⟩
  dsimp only
  rw [← setPageByte_operandByte, ← setColumnByte_operandByte]
  exact ⟨rfl, rfl, rfl⟩

end Sys2Proof.Machine
end

section
/-! The statements of 30_encoding.md about a word handed to the machine: which words stand for which operation, and that an idle
engine's step is that operation's meaning. -/

namespace Sys2Proof.Machine

/-- Settles O4, by running the decoder on each word. -/
theorem sampleCommandWordsDecode : Obligations.SampleCommandWordsDecode := by
  unfold Obligations.SampleCommandWordsDecode
  decide

/-- Settles O5: the host's access is the step, and an idle engine hands a word that decodes to the dispatcher. -/
theorem stepRunsTheDecodedCommand : Obligations.StepRunsTheDecodedCommand := by
  intro s w i rest ha hs hw
  have hidle : State.busy { s with agenda := rest } = false := busy_of_idle hs
  rw [step_of_host ha, hostAccess, if_pos ⟨rfl, rfl⟩, handCommand, hidle, hw]
  rfl

/-- The table reads a whole word as the decoder does (R53). -/
theorem decodeTableWord_toNat (w : Word) : decodeTableWord 32 w.toNat = decode w := by
  have hbytes := decodeBytes_lanes_append w []
  rw [List.append_nil] at hbytes
  rw [decodeTableWord, if_pos (Nat.le_refl 32), Nat.mod_eq_of_lt w.isLt, BitVec.ofNat_toNat, BitVec.setWidth_eq, hbytes,
    Option.map_map]
  exact Option.map_id'

/-- Settles O6: the word handed over is the operation's, and `StepRunsTheDecodedCommand` runs it. -/
theorem fetchedWordRunsNext : Obligations.FetchedWordRunsNext := by
  intro s i
  have hword : BitVec.ofNat 32 ((encode i).toNat % 2 ^ 32) = encode i := by
    rw [Nat.mod_eq_of_lt (encode i).isLt, BitVec.ofNat_toNat, BitVec.setWidth_eq]
  refine ⟨(decodeTableWord_toNat _).trans (decode_encode i), ?_⟩
  exact stepRunsTheDecodedCommand (s.withFetchWord 32 (encode i).toNat) (encode i) i s.agenda
    (by rw [withFetchWord_agenda, hword]) rfl (decode_encode i)

end Sys2Proof.Machine
end

section
/-! The statement of 30_encoding.md about CHIP: which chip is selected while a chip-targeted command's frame lasts. -/

namespace Sys2Proof.Machine

/-- CS_SELECT sets both lines, whatever they were (R58, R83). -/
theorem after_selectTrace (p : Pins) (chip : BitVec 2) :
    (p.after (selectTrace chip)).cs1 = (if chip = 0b01#2 then .high else .low) ∧
      (p.after (selectTrace chip)).cs2 = (if chip = 0b10#2 then .high else .low) := by
  unfold selectTrace
  by_cases h1 : chip = 0b01#2
  · subst h1; exact ⟨rfl, rfl⟩
  · by_cases h2 : chip = 0b10#2
    · subst h2; exact ⟨rfl, rfl⟩
    · simp only [if_neg h1, if_neg h2]; exact ⟨rfl, rfl⟩

theorem length_selectTrace (chip : BitVec 2) : (selectTrace chip).length = 2 := by
  unfold selectTrace
  split
  · rfl
  · split <;> rfl

/-- A stretch of events that writes neither chip select leaves both. -/
theorem after_chipSelects_of_no_write {tr : List Event} (h : ∀ e ∈ tr, ∀ v, e ≠ .w .cs1 v ∧ e ≠ .w .cs2 v) (p : Pins) :
    (p.after tr).cs1 = p.cs1 ∧ (p.after tr).cs2 = p.cs2 := by
  induction tr generalizing p with
  | nil => exact ⟨rfl, rfl⟩
  | cons e tr ih =>
    obtain ⟨he, htr⟩ := List.forall_mem_cons.mp h
    obtain ⟨h1, h2⟩ := ih htr (p.afterEvent e)
    rw [after_cons, h1, h2]
    cases e with
    | w line v => cases line <;> simp_all [Pins.setLevel]
    | _ => exact ⟨rfl, rfl⟩

theorem frameTrace_no_chipSelect (mode : Mode) (rs : Level) (b : Byte) :
    ∀ e ∈ frameTrace mode rs b, ∀ v, e ≠ .w .cs1 v ∧ e ≠ .w .cs2 v := by
  cases mode <;> simp [frameTrace, transferTrace, pulseTrace]

/-- From the end of the select to the start of the release a command's trace is the select and a part of the frame. -/
theorem take_chipTrace {mode : Mode} {code : Byte} {chip : BitVec 2} {k : Nat} (hlow : 2 ≤ k)
    (hhigh : k + 2 ≤ (chipTrace mode code chip).length) :
    (chipTrace mode code chip).take k = selectTrace chip ++ (frameTrace mode .low code).take (k - 2) := by
  have hsel := length_selectTrace chip
  have hlen : (chipTrace mode code chip).length = 2 + (frameTrace mode .low code).length + 2 := by
    rw [chipTrace, List.length_append, List.length_append, hsel]; rfl
  rw [chipTrace, List.take_append_of_le_length (by rw [List.length_append]; omega), List.take_append, hsel,
    List.take_of_length_le (by omega)]

/-- Settles O46: the select sets the lines, no event of the frame writes one, and the release clears both. -/
theorem onlyTheAddressedChipIsSelectedDuringItsFrame : Obligations.OnlyTheAddressedChipIsSelectedDuringItsFrame := by
  intro s code chip hs ha
  obtain ⟨_, hexec, hevents, hend⟩ := performs_cmdToChip hs ha code chip
  refine ⟨_, hexec, fun k hlow hhigh => ?_, _, hend, hs, ?_, ?_⟩
  · obtain ⟨u, hu, _, _, hpins⟩ := hevents k (by omega)
    obtain ⟨hcs1, hcs2⟩ := after_selectTrace s.pins chip
    obtain ⟨hkeep1, hkeep2⟩ := after_chipSelects_of_no_write
      (fun e he => frameTrace_no_chipSelect s.mode .low code e (List.mem_of_mem_take he)) (s.pins.after (selectTrace chip))
    rw [take_chipTrace hlow hhigh, after_append] at hpins
    exact ⟨u, hu, by rw [hpins, hkeep1, hcs1], by rw [hpins, hkeep2, hcs2]⟩
  · rw [moved_pins, chipTrace, after_append]; rfl
  · rw [moved_pins, chipTrace, after_append]; rfl

end Sys2Proof.Machine
end

section
/-! The statements of 40_bus_engine.md and 60_exceptions.md about the enable pulse, the busy poll and the reads: what a pulse
and a read do, and which reads repeat without bound. -/

namespace Sys2Proof.Machine

/-! ### Runs from inside an operation -/

/-- A stretch that starts where the engine stands and does not end its operation. -/
theorem Goes.runsTo_of_running {s : State} {p p' : Progress} {tr : List Event} {ds : List Level}
    (h : Goes s p tr ds p') (hs : s.seq = .running p) (hmore : p'.todo ≠ []) :
    RunsTo s tr { s.moved tr ds with seq := .running p' } := by
  have hself : { s with seq := .running p } = s := by rw [← hs]
  rw [Goes, hself, resume_of_ne_nil _ _ hmore] at h
  exact h

/-- A stretch that uses up one answer `l` and leads back to where it began is performed once for each `l` in a row. -/
theorem goes_replicate {w : Word} {todo : List Action} {ans : Option Byte} {l : Level} {tr : List Event}
    (hne : todo ≠ [])
    (once : ∀ (s : State) (smp : Option Level) (ds : List Level), s.agenda = [] → s.draws = l :: ds →
      Goes s ⟨w, todo, smp, ans⟩ tr ds ⟨w, todo, some l, ans⟩)
    (s : State) (ha : s.agenda = []) (smp : Option Level) (n : Nat) (rest : List Level)
    (hd : s.draws = List.replicate (n + 1) l ++ rest) :
    Goes s ⟨w, todo, smp, ans⟩ (List.replicate (n + 1) tr).flatten rest ⟨w, todo, some l, ans⟩ := by
  induction n generalizing s smp with
  | zero => simpa using once s smp rest ha hd
  | succ n ih =>
    have hfirst := once s smp (List.replicate (n + 1) l ++ rest) ha hd
    rw [List.replicate_succ, List.flatten_cons]
    exact hfirst.append hne (ih (s.moved tr _) ha (some l) rfl)

/-! ### The enable pulse -/

/-- The four events of a pulse (R70). -/
theorem goes_enablePulse (s : State) (ha : s.agenda = []) (w : Word) (rest : List Action) (smp : Option Level)
    (ans : Option Byte) :
    Goes s ⟨w, enablePulse ++ rest, smp, ans⟩ pulseTrace s.draws ⟨w, rest, smp, ans⟩ :=
  goes_stretch s ha w enablePulse rest smp ans (by simp [enablePulse, Action.reads]) (by simp [enablePulse]) _ rfl

/-- Settles O43: the pulse's events set E twice, last to 0, and write no other line. -/
theorem enablePulseLeavesELow : Obligations.EnablePulseLeavesELow := fun s w after smp ans ha hs hafter =>
  (goes_enablePulse s ha w after smp ans).runsTo_of_running hs hafter

/-! ### The busy poll -/

/-- Settles O34: WAIT_BUSY is one whole poll, started from an idle engine. -/
theorem waitBusyPollsUntilD7ReadsLow : Obligations.WaitBusyPollsUntilD7ReadsLow := fun _ _ _ hs ha hd =>
  performs_waitBusy hs ha hd

/-- A sample of 1 and the pulse that leads to the next sample (R75). -/
theorem goes_pollRead_high (s : State) (ha : s.agenda = []) (w : Word) (rest : List Action) (smp : Option Level)
    (ans : Option Byte) {ds : List Level} (hd : s.draws = .high :: ds) :
    Goes s ⟨w, .pollRead :: rest, smp, ans⟩ (.r .d7 .high :: pulseTrace) ds ⟨w, .pollRead :: rest, some .high, ans⟩ :=
  (goes_read s ha w .pollRead rest smp ans .high ds rfl hd).append (by simp [Progress.afterRead])
    (goes_enablePulse (s.moved _ ds) ha w _ _ ans)

/-- Settles O41: each sample of 1 leads back to the same place. -/
theorem busyPollRepeatsForEveryOne : Obligations.BusyPollRepeatsForEveryOne := by
  intro s w after smp ans n rest ha hs hd
  have hall := goes_replicate (List.cons_ne_nil _ _)
    (fun u smp' _ hu hdu => goes_pollRead_high u hu w after smp' ans hdu) s ha smp n rest hd
  exact hall.runsTo_of_running hs (List.cons_ne_nil _ _)

theorem seven_mem_dataLines (m : Mode) : (7 : Fin 8) ∈ dataLines m := by
  cases m <;> decide

/-- A sample of D7 stands inside the poll's input phase of every line (R75). -/
theorem AtPosition.insidePoll_of_pollRead {m : Mode} {codes : List Byte} {i : Instr} {rest : List Action}
    (h : AtPosition (scriptOf m codes i) (.pollRead :: rest)) {j : Fin 8} (hj : j ∈ dataLines m) :
    insidePoll j rest = true := by
  have hs := h.suffix (by simp) (by simp) (by simp)
  have hfit := scriptOf_fit m codes i (ne_scanKey_of_pollRead_mem (mem_of_cons_suffix hs))
  exact (hfit.poll rest hs).2 j hj

theorem driven_data_of_input {s : State} {i : Fin 8} (h : s.pins.data[i].dir = .input) : s.driven (.data i) = none := by
  simp only [State.driven, h, reduceCtorEq, if_false]

/-- Settles O25: the sample stands inside the input phase for D7. -/
theorem busyFlagIsSampledOnAnInputLine : Obligations.BusyFlagIsSampledOnAnInputLine := by
  intro s p rest hpos hdirs hp ht
  obtain ⟨i, -, hat, -⟩ := hpos p hp
  rw [ht] at hat
  have h7 := seven_mem_dataLines s.mode
  have hinside : insidePoll 7 s.todo = true := by
    rw [todo_of_running hp, ht]
    exact hat.insidePoll_of_pollRead h7
  have hdir : s.pins.data[7].dir = .input := by simpa [hinside] using hdirs 7 h7
  exact ⟨hdir, driven_data_of_input hdir⟩

/-! ### The release wait -/

/-- A release read of 0 leads back to itself (R92). -/
theorem goes_releaseRead_low (s : State) (ha : s.agenda = []) (w : Word) (r c : Fin 4) (smp : Option Level)
    (ans : Option Byte) {ds : List Level} (hd : s.draws = .low :: ds) :
    Goes s ⟨w, [.releaseRead r c], smp, ans⟩ [.r (.col c) .low] ds ⟨w, [.releaseRead r c], some .low, ans⟩ :=
  goes_read s ha w (.releaseRead r c) [] smp ans .low ds rfl hd

/-- Reads change no pin (R69). -/
theorem after_replicate_r (n : Nat) (line : InLine) (l : Level) (p : Pins) :
    p.after (List.replicate n (.r line l)) = p := by
  induction n with
  | zero => rfl
  | succ n ih => rw [List.replicate_succ, after_cons, afterEvent_r, ih]

/-- Settles O42: each read of 0 leads back to the same place, and no read changes a pin. -/
theorem releaseWaitRepeatsForEveryZero : Obligations.ReleaseWaitRepeatsForEveryZero := by
  intro s w r c smp ans n rest ha hs hd tr
  have hall := goes_replicate (List.cons_ne_nil _ _)
    (fun u smp' _ hu hdu => goes_releaseRead_low u hu w r c smp' ans hdu) s ha smp n rest hd
  rw [List.flatten_replicate_singleton] at hall
  have hrun := hall.runsTo_of_running hs (List.cons_ne_nil _ _)
  rw [State.moved, after_replicate_r] at hrun
  exact hrun

/-! ### What one read leaves -/

/-- The engine's step at a read: its event, its answer used up, and the place the level steers to (R67, R69). -/
theorem step_of_reads {s : State} (ha : s.agenda = []) {w : Word} {a : Action} {rest : List Action}
    {smp : Option Level} {ans : Option Byte} (hs : s.seq = .running ⟨w, a :: rest, smp, ans⟩) (hr : a.reads = true)
    {l : Level} {ds : List Level} (hd : s.draws = l :: ds) :
    step s = .next
      ((State.emit { s with draws := ds } (a.event l)).resume (Progress.afterRead a l ⟨w, rest, smp, ans⟩)) := by
  rw [step_of_empty_agenda ha, engineTurn_of_running hs rfl, perform_of_reads _ _ _ hr, nextDraw_of_cons s l ds hd,
    dropDraw_of_cons s l ds hd]

/-- Settles O21: `Progress.afterRead` for each kind of read and either level. -/
theorem eachReadSteersTheSequence : Obligations.EachReadSteersTheSequence := by
  intro s w r c rest smp ans l ds ha hd
  refine ⟨fun hs => ⟨_, step_of_reads ha hs rfl hd, resume_draws .., ?_⟩,
    fun hs => ⟨_, step_of_reads ha hs rfl hd, resume_draws .., ?_⟩,
    fun hs => ⟨_, step_of_reads ha hs rfl hd, resume_draws .., ?_⟩,
    fun hs => ⟨_, step_of_reads ha hs rfl hd, resume_draws .., ?_, ?_⟩⟩
  · rw [resume_todo]; cases l <;> rfl
  · rw [resume_todo]; cases l <;> rfl
  · rw [resume_todo]; cases l <;> rfl
  · rintro rfl; exact ⟨resume_todo .., rfl⟩
  · rintro rfl; exact ⟨rfl, rfl⟩

end Sys2Proof.Machine
end

section
/-! The LCD operations that send one byte: the runs `Performs` names, written out as the rules of 41_lcd_ops.md state
them. -/

namespace Sys2Proof.Machine

/-- Settles O31: the poll after the command frame belongs to FOUR_BIT alone (R78). -/
theorem sendCmdSendsItsByteUnchanged : Obligations.SendCmdSendsItsByteUnchanged :=
  ⟨fun _ code hs ha hm => performs_sendCmd_eightBit hs ha hm code,
    fun _ code _ _ hs ha hm hd => performs_sendCmd_fourBit hs ha hm code hd⟩

/-- Settles O32: one frame with RS high and one poll, whatever the mode (R79). -/
theorem printCharSendsDataThenPolls : Obligations.PrintCharSendsDataThenPolls :=
  fun _ ch _ _ hs ha hd => performs_printChar hs ha ch hd

/-- Settles O33: the byte of the frame is `clearByte`, which is 0x01 (R65, R80). -/
theorem clearSendsOneThenPollsOnce : Obligations.ClearSendsOneThenPollsOnce :=
  fun _ _ _ hs ha hd => performs_clear hs ha hd

end Sys2Proof.Machine
end

section
/-! The statements of 42_chip_select.md: the chip selects are never both high, and the two chip-targeted operations. -/

namespace Sys2Proof.Machine

/-! ### The chip selects -/

/-- A stretch that writes neither chip select cannot raise both. -/
theorem LeavesChipSelects.neverBoth_append_iff {l : List Action} (h : LeavesChipSelects l) (a b : Level)
    (rest : List Action) : neverBoth a b (l ++ rest) ↔ neverBoth a b rest := by
  induction l with
  | nil => rfl
  | cons x l ih =>
    obtain ⟨hx, hl⟩ := List.forall_mem_cons.mp h
    have hrest := ih hl
    cases x with
    | write line v =>
      cases line with
      | cs1 => exact absurd rfl (hx v).1
      | cs2 => exact absurd rfl (hx v).2
      | _ => exact hrest
    | _ => exact hrest

/-- CS_SELECT deasserts one line before it may assert the other (R83). -/
theorem neverBoth_csSelect {a b : Level} (hab : ¬(a = .high ∧ b = .high)) (chip : BitVec 2) {rest : List Action}
    (h : neverBoth (cs1Level chip) (cs2Level chip) rest) : neverBoth a b (csSelect chip ++ rest) := by
  by_cases h1 : chip = chipCs1
  · subst h1; exact ⟨hab, by simp, h⟩
  · by_cases h2 : chip = chipCs2
    · subst h2; exact ⟨hab, by simp, h⟩
    · rw [cs1Level, cs2Level, if_neg h1, if_neg h2] at h
      rw [csSelect, if_neg h1, if_neg h2]
      exact ⟨hab, by simp, h⟩

/-- No CHIP selects both chips (R58). -/
theorem not_both_selected (chip : BitVec 2) : ¬(cs1Level chip = .high ∧ cs2Level chip = .high) := by
  revert chip; decide

theorem neverBoth_csRelease {a b : Level} (hab : ¬(a = .high ∧ b = .high)) {rest : List Action}
    (h : neverBoth .low .low rest) : neverBoth a b (csRelease ++ rest) :=
  ⟨hab, by simp, h⟩

/-- A whole CMD_TO_CHIP raises at most the addressed line and leaves both low (R84). -/
theorem neverBoth_cmdToChip {a b : Level} (hab : ¬(a = .high ∧ b = .high)) (m : Mode) (code : Byte) (chip : BitVec 2)
    {rest : List Action} (h : neverBoth .low .low rest) : neverBoth a b (cmdToChipScript m code chip ++ rest) := by
  rw [cmdToChipScript, List.append_assoc, List.append_assoc]
  refine neverBoth_csSelect hab chip ?_
  rw [neverBoth_frame]
  exact neverBoth_csRelease (not_both_selected chip) h

/-- No operation, started with the lines not both high, makes them so. -/
theorem neverBoth_scriptOf {a b : Level} (hab : ¬(a = .high ∧ b = .high)) (m : Mode) (codes : List Byte) (i : Instr) :
    neverBoth a b (scriptOf m codes i) := by
  have hlow : neverBoth .low .low [] := by simp [neverBoth]
  by_cases hcmd : ∃ code chip, i = .cmdToChip code chip
  · obtain ⟨code, chip, rfl⟩ := hcmd
    simpa [scriptOf] using neverBoth_cmdToChip hab m code chip hlow
  by_cases hcur : ∃ page column chip, i = .setCursor page column chip
  · obtain ⟨page, column, chip, rfl⟩ := hcur
    have hcolumn := neverBoth_cmdToChip (a := .low) (b := .low) (by simp) m (setColumnByte column) chip hlow
    rw [List.append_nil] at hcolumn
    exact neverBoth_cmdToChip hab m (setPageByte page) chip hcolumn
  simp only [not_exists] at hcmd hcur
  rw [← List.append_nil (scriptOf m codes i), (scriptOf_leavesChipSelects m codes hcmd hcur).neverBoth_append_iff]
  exact hab

/-- Performing an action takes the lines to the levels its rest goes on from. -/
theorem neverBoth_afterEvent {p : Pins} {a : Action} {rest : List Action} (h : neverBoth p.cs1 p.cs2 (a :: rest))
    (l : Level) : neverBoth (p.afterEvent (a.event l)).cs1 (p.afterEvent (a.event l)).cs2 rest := by
  cases a with
  | write line v =>
    cases line with
    | cs1 => exact h.2
    | cs2 => exact h.2
    | _ => exact h
  | _ => exact h

/-- What a read puts in front of the rest, or in its place, writes neither chip select (R67). -/
theorem neverBoth_afterRead {a b : Level} {p : Progress} (h : neverBoth a b p.todo) (x : Action) (l : Level) :
    neverBoth a b (p.afterRead x l).todo := by
  have hab := not_both_of_neverBoth h
  obtain ht | ⟨-, ht⟩ | ⟨r, c, -, ht⟩ | ⟨r, c, -, ht⟩ | ⟨r, c, -, -, ht⟩ | ⟨r, c, -, -, ht⟩ :=
    afterRead_todo_cases x l p <;> rw [ht]
  · exact h
  · exact h
  · exact h
  · exact hab
  · exact h
  · exact hab

theorem chipSelectsOk_of_idle {s : State} (hs : s.seq = .idle) (h : ¬(s.pins.cs1 = .high ∧ s.pins.cs2 = .high)) :
    s.chipSelectsOk := by
  rw [State.chipSelectsOk, todo_of_idle hs]
  exact h

theorem engineTurn_chipSelectsOk {s : State} (h : s.chipSelectsOk) : s.engineTurn.chipSelectsOk := by
  obtain ⟨-, he⟩ | ⟨p, hp, -, he⟩ | ⟨p, a, rest, hp, ht, he⟩ := engineTurn_cases s <;> rw [he]
  · exact h
  · rw [State.chipSelectsOk, todo_of_running hp] at h
    rw [State.chipSelectsOk, resume_pins, resume_todo]
    exact h
  · rw [State.chipSelectsOk, todo_of_running hp, ht] at h
    rw [State.chipSelectsOk, perform_pins, perform_todo]
    exact neverBoth_afterRead (neverBoth_afterEvent h _) a _

/-- Every step keeps the invariant: the engine follows its sequence, a new operation begins a safe one, and a reset leaves the
lines as they were. -/
theorem step_chipSelectsOk {s t : State} (h : s.chipSelectsOk) (hstep : step s = .next t) : t.chipSelectsOk := by
  have hab := not_both_of_neverBoth h
  obtain ⟨-, rfl⟩ | ⟨rest, -, rfl⟩ | ⟨_, _, _, -, -, rfl⟩ | ⟨_, _, -, -, rfl⟩ | ⟨_, _, -, -, -, rfl⟩ |
    ⟨_, _, i, -, -, -, rfl⟩ | ⟨_, -, rfl⟩ := step_cases hstep
  · exact engineTurn_chipSelectsOk h
  · exact engineTurn_chipSelectsOk (s := { s with agenda := rest }) h
  · exact h
  · exact h
  · exact h
  · exact neverBoth_scriptOf hab s.mode s.initSeq i
  · exact chipSelectsOk_of_idle rfl hab

/-- Settles O26: `neverBoth` of the levels and the rest of the sequence is kept by every step. -/
theorem chipSelectsAreNeverBothHigh : Obligations.ChipSelectsAreNeverBothHigh :=
  ⟨fun _ _ h hstep => step_chipSelectsOk h hstep, fun _ h => not_both_of_neverBoth h,
    fun _ hs h => chipSelectsOk_of_idle hs h⟩

/-! ### The chip-targeted operations -/

/-- A word is its fields, each shifted to its place (R54). -/
theorem assembleFields_eq_or (op : BitVec 4) (chip : BitVec 2) (column arg : Byte) :
    assembleFields op chip column arg =
      op.zeroExtend 32 <<< 28 ||| chip.zeroExtend 32 <<< 16 ||| column.zeroExtend 32 <<< 8 ||| arg.zeroExtend 32 := by
  have hzero : (0#10).setWidth 32 = 0#32 := rfl
  calc assembleFields op chip column arg = (op ++ 0#10 ++ chip ++ column ++ arg).setWidth 32 := (BitVec.setWidth_eq _).symm
    _ = (op ++ 0#10).setWidth 32 <<< 18 ||| chip.setWidth 32 <<< 16 ||| column.setWidth 32 <<< 8 ||| arg.setWidth 32 :=
      BitVec.setWidth_append_append_append_eq_shiftLeft_setWidth_or
    _ = _ := by
      rw [BitVec.setWidth_append_eq_shiftLeft_setWidth_or, hzero, BitVec.or_zero, ← BitVec.shiftLeft_add]

/-- CODE in bits 7 to 0, CHIP in bits 17 and 16 (R54, R55). -/
theorem encode_cmdToChip (code : Byte) (chip : BitVec 2) :
    encode (.cmdToChip code chip) = 0x60000000#32 ||| chip.zeroExtend 32 <<< 16 ||| code.zeroExtend 32 := by
  simp [encode, Instr.op, assembleFields_eq_or]

/-- PAGE in bits 7 to 0, COLUMN in bits 15 to 8, CHIP in bits 17 and 16 (R54, R55). -/
theorem encode_setCursor (page column : Byte) (chip : BitVec 2) :
    encode (.setCursor page column chip) =
      0x50000000#32 ||| chip.zeroExtend 32 <<< 16 ||| column.zeroExtend 32 <<< 8 ||| page.zeroExtend 32 := by
  simp [encode, Instr.op, assembleFields_eq_or]

/-- Settles O35: select, frame and release are one stretch without a read. -/
theorem cmdToChipFramesItsByteBetweenSelectAndRelease :
    Obligations.CmdToChipFramesItsByteBetweenSelectAndRelease :=
  fun _ code chip hs ha => ⟨encode_cmdToChip code chip, performs_cmdToChip hs ha code chip⟩

/-- Settles O36: the page command's stretch and then the column command's, with nothing between them. -/
theorem setCursorSendsPageThenColumn : Obligations.SetCursorSendsPageThenColumn :=
  fun _ page column chip hs ha => ⟨encode_setCursor page column chip, performs_setCursor hs ha page column chip⟩

/-! ### The page and column bytes -/

/-- The page commands are the eight from 0xB8 on (R86). -/
theorem toNat_setPageByte (p : Byte) : (setPageByte p).toNat = 0xB8 + p.toNat % 8 := by
  have hmod : p.toNat &&& 0x07 = p.toNat % 8 := Nat.and_two_pow_sub_one_eq_mod p.toNat 3
  calc (setPageByte p).toNat = 0xB8 ||| (p.toNat &&& 0x07) := by rw [setPageByte, BitVec.toNat_or, BitVec.toNat_and]; rfl
    _ = 2 ^ 3 * 0x17 ||| p.toNat % 8 := congrArg _ hmod
    _ = 0xB8 + p.toNat % 8 := (Nat.two_pow_add_eq_or_of_lt (by omega) 0x17).symm

/-- Bit 6 of a column command is set whatever the column's is (R86). -/
theorem setColumnByte_eq_or_low_bits (c : Byte) : setColumnByte c = 0x40#8 ||| (c &&& 0x3F#8) := by
  apply BitVec.eq_of_toNat_eq
  calc (setColumnByte c).toNat = 0x40 ||| (c.toNat &&& 0x7F) := by rw [setColumnByte, BitVec.toNat_or, BitVec.toNat_and]; rfl
    _ = (0x40 ||| c.toNat) &&& (0x40 ||| 0x3F) := Nat.or_and_distrib_left 0x40 c.toNat 0x7F
    _ = 0x40 ||| (c.toNat &&& 0x3F) := (Nat.or_and_distrib_left 0x40 c.toNat 0x3F).symm
    _ = (0x40#8 ||| (c &&& 0x3F#8)).toNat := by rw [BitVec.toNat_or, BitVec.toNat_and]; rfl

/-- The column commands are the sixty-four from 0x40 on (R86). -/
theorem toNat_setColumnByte (c : Byte) : (setColumnByte c).toNat = 0x40 + c.toNat % 64 := by
  have hmod : c.toNat &&& 0x3F = c.toNat % 64 := Nat.and_two_pow_sub_one_eq_mod c.toNat 6
  calc (setColumnByte c).toNat = 0x40 ||| (c.toNat &&& 0x3F) := by
        rw [setColumnByte_eq_or_low_bits, BitVec.toNat_or, BitVec.toNat_and]; rfl
    _ = 2 ^ 6 * 1 ||| c.toNat % 64 := congrArg _ hmod
    _ = 0x40 + c.toNat % 64 := (Nat.two_pow_add_eq_or_of_lt (by omega) 1).symm

/-- Every default byte of INIT is below the column commands, and so below the page commands (D9). -/
theorem toNat_lt_of_mem_defaultInitSeqs : ∀ b ∈ defaultInitSeq4 ++ defaultInitSeq8, b.toNat < 0x40 := by decide

/-- Settles O49: the three kinds of bytes lie in ranges that do not meet. -/
theorem pageAndColumnBytesFollowTheirFormulas : Obligations.PageAndColumnBytesFollowTheirFormulas := by
  have hpage := toNat_setPageByte
  have hcolumn := toNat_setColumnByte
  refine ⟨fun p => ⟨rfl, ?_, ?_, ?_, fun hmem => ?_⟩,
    fun c => ⟨rfl, ?_, ?_, setColumnByte_eq_or_low_bits c, fun _ => ?_, fun hmem => ?_⟩, fun p c heq => ?_⟩
  · rw [hpage]; omega
  · rw [hpage]; omega
  · apply BitVec.eq_of_toNat_eq
    rw [hpage, hpage, BitVec.toNat_umod]
    exact congrArg (0xB8 + ·) (Nat.mod_mod _ _).symm
  · have := toNat_lt_of_mem_defaultInitSeqs _ hmem
    rw [hpage] at this; omega
  · rw [hcolumn]; omega
  · rw [hcolumn]; omega
  · apply BitVec.eq_of_toNat_eq
    rw [hcolumn, hcolumn, BitVec.toNat_add, BitVec.toNat_ofNat]
    omega
  · have := toNat_lt_of_mem_defaultInitSeqs _ hmem
    rw [hcolumn] at this; omega
  · have := congrArg BitVec.toNat heq
    rw [hpage, hcolumn] at this; omega

end Sys2Proof.Machine
end

section
/-! The statements of 43_keypad.md: the key table, the run of SCAN_KEY along its pseudocode, the keys it returns and the
row lines it leaves. -/

namespace Sys2Proof.Machine

/-! ### The key table -/

/-- The symbol codes of R89. -/
def symbolCodes : List Byte :=
  [0x30#8, 0x31#8, 0x32#8, 0x33#8, 0x34#8, 0x35#8, 0x36#8, 0x37#8, 0x38#8, 0x39#8,
    0x41#8, 0x42#8, 0x43#8, 0x44#8, 0x2A#8, 0x23#8]

theorem symbolCode_injective : Function.Injective symbolCode := by decide

theorem exists_symbolCode_eq_iff (code : Byte) : (∃ n, symbolCode n = code) ↔ code ∈ symbolCodes := by
  have hmem : ∀ n, symbolCode n ∈ symbolCodes := by decide
  have hall : ∀ code ∈ symbolCodes, ∃ n, symbolCode n = code := by decide
  exact ⟨fun ⟨n, hn⟩ => hn ▸ hmem n, hall code⟩

theorem keyPosition_inj {r c r' c' : Fin 4} (h : keyPosition r c = keyPosition r' c') : r = r' ∧ c = c' := by
  have hval : 4 * r.val + c.val = 4 * r'.val + c'.val := congrArg Fin.val h
  omega

theorem exists_keyPosition_eq (n : Fin 16) : ∃ r c, keyPosition r c = n := by
  revert n; decide

/-- Constraint (b) of R88: symbol 11 is 'B'. -/
theorem symbolAt_eleven : symbolAt 11 = 11 := Equiv.swap_apply_left ..

/-- Every symbol stands at some key (R88 (a)). -/
theorem exists_keymap_eq_iff (code : Byte) : (∃ r c, keymap r c = code) ↔ ∃ n, symbolCode n = code := by
  constructor
  · rintro ⟨r, c, h⟩
    exact ⟨_, h⟩
  · rintro ⟨n, rfl⟩
    obtain ⟨r, c, hpos⟩ := exists_keyPosition_eq (symbolAt.symm n)
    exact ⟨r, c, by rw [keymap, hpos, Equiv.apply_symm_apply]⟩

/-- Settles O53: the table is a permutation of the sixteen symbols followed by their distinct codes. -/
theorem keymapGivesEachSymbolOnce : Obligations.KeymapGivesEachSymbolOnce := by
  refine ⟨fun r c r' c' h => ?_, fun code => ?_, ?_, fun r c => ?_⟩
  · exact keyPosition_inj (symbolAt.injective (symbolCode_injective h))
  · exact (exists_keymap_eq_iff code).trans (exists_symbolCode_eq_iff code)
  · exact congrArg symbolCode symbolAt_eleven
  · have hne : ∀ n, symbolCode n ≠ 0x00#8 := by decide
    exact hne _

/-! ### The pass of the pseudocode, one column at a time -/

/-- The row drive belongs to the first column of a row (R93). -/
def driveTrace (r c : Fin 4) : List Event := if c = 0 then rowTrace r else []

/-- The answers of a column that gives no key: a 1, or a 0 that the confirming read does not bear out (R91). -/
def skipAnswers (bounce : Bool) : List Level := if bounce then [.low, .high] else [.high]

/-- The events of a column that gives no key (R91, R93). -/
def skipTrace (r c : Fin 4) (bounce : Bool) : List Event :=
  driveTrace r c ++ if bounce then [Event.r (.col c) .low, .dly .deb, .r (.col c) .high] else [Event.r (.col c) .high]

/-- The answers of a key that is held for `n` reads of the release wait (R91, R92). -/
def keyAnswers (n : Nat) : List Level := [Level.low, .low] ++ List.replicate n Level.low ++ [Level.high]

/-- The events of a column that gives a key held for `n` reads of the release wait (R91, R92, R93). -/
def keyTrace (r c : Fin 4) (n : Nat) : List Event :=
  driveTrace r c ++ [Event.r (.col c) .low, .dly .deb, .r (.col c) .low] ++
    (List.replicate n (Event.r (.col c) .low) ++ [Event.r (.col c) .high])

theorem keyAnswers_append (n : Nat) (rest : List Level) :
    keyAnswers n ++ rest = .low :: .low :: (List.replicate n .low ++ .high :: rest) := by
  simp [keyAnswers]

theorem scanPass_cons_skip (r c : Fin 4) (ps : List (Fin 4 × Fin 4)) (bounce : Bool) (ds : List Level) :
    scanPass ((r, c) :: ps) (skipAnswers bounce ++ ds) =
      (scanPass ps ds).map fun x => (skipTrace r c bounce ++ x.1, x.2) := by
  cases bounce <;> rfl

theorem scanPass_cons_key (r c : Fin 4) (ps : List (Fin 4 × Fin 4)) (n : Nat) (rest : List Level) :
    scanPass ((r, c) :: ps) (keyAnswers n ++ rest) = some (keyTrace r c n, keymap r c, rest) := by
  have hlow : ∀ l ∈ List.replicate n Level.low, (l == .low) = true := by simp
  rw [keyAnswers_append]
  simp [scanPass, List.dropWhile_append_of_pos hlow, List.takeWhile_append_of_pos hlow, keyTrace, driveTrace]

/-- A key that is never released leaves the pass without an end (R92). -/
theorem scanPass_cons_held (r c : Fin 4) (ps : List (Fin 4 × Fin 4)) (n : Nat) :
    scanPass ((r, c) :: ps) (.low :: .low :: List.replicate n .low) = none := by
  simp [scanPass]

theorem eq_replicate_low_or_high (ds : List Level) :
    (∃ n, ds = List.replicate n .low) ∨ ∃ n rest, ds = List.replicate n .low ++ .high :: rest := by
  induction ds with
  | nil => exact .inl ⟨0, rfl⟩
  | cons l ds ih =>
    cases l with
    | high => exact .inr ⟨0, ds, rfl⟩
    | low =>
      obtain ⟨n, rfl⟩ | ⟨n, rest, rfl⟩ := ih
      · exact .inl ⟨n + 1, rfl⟩
      · exact .inr ⟨n + 1, rest, rfl⟩

/-- What the first column of a pass that ends can give: no key, and the pass of the other columns, or the key. -/
theorem scanPass_cons_cases {r c : Fin 4} {ps : List (Fin 4 × Fin 4)} {ds : List Level} {tr : List Event} {key : Byte}
    {rest : List Level} (h : scanPass ((r, c) :: ps) ds = some (tr, key, rest)) :
    (∃ bounce ds' tr', ds = skipAnswers bounce ++ ds' ∧ scanPass ps ds' = some (tr', key, rest) ∧
      tr = skipTrace r c bounce ++ tr') ∨
    (∃ n, ds = keyAnswers n ++ rest ∧ tr = keyTrace r c n ∧ key = keymap r c) := by
  have skip : ∀ bounce ds', ds = skipAnswers bounce ++ ds' → ∃ bounce ds' tr', ds = skipAnswers bounce ++ ds' ∧
      scanPass ps ds' = some (tr', key, rest) ∧ tr = skipTrace r c bounce ++ tr' := by
    intro bounce ds' hds
    rw [hds, scanPass_cons_skip, Option.map_eq_some_iff] at h
    obtain ⟨⟨tr', _, _⟩, hpass, heq⟩ := h
    cases heq
    exact ⟨bounce, ds', tr', hds, hpass, rfl⟩
  match ds with
  | [] => cases h
  | .high :: ds' => exact .inl (skip false ds' rfl)
  | [.low] => cases h
  | .low :: .high :: ds' => exact .inl (skip true ds' rfl)
  | .low :: .low :: ds' =>
    obtain ⟨n, rfl⟩ | ⟨n, rest', rfl⟩ := eq_replicate_low_or_high ds'
    · rw [scanPass_cons_held] at h
      cases h
    · rw [← keyAnswers_append, scanPass_cons_key] at h
      cases h
      exact .inr ⟨n, (keyAnswers_append n rest).symm, rfl, rfl⟩

/-! ### The engine along the pass -/

/-- The actions for the columns still to visit (R93). -/
def scanActions (ps : List (Fin 4 × Fin 4)) : List Action :=
  ps.flatMap fun x => (if x.2 = 0 then rowDrive x.1 else []) ++ [.scanRead x.1 x.2]

theorem scanActions_cons (r c : Fin 4) (ps : List (Fin 4 × Fin 4)) :
    scanActions ((r, c) :: ps) = (if c = 0 then rowDrive r else []) ++ .scanRead r c :: scanActions ps := by
  simp [scanActions]

theorem scanKeyScript_eq_scanActions : scanKeyScript = scanActions scanOrder := rfl

/-- A run of no events stays where the operation stands. -/
theorem Goes.refl {s : State} {p : Progress} (hmore : p.todo ≠ []) : Goes s p [] s.draws p := by
  have hself : (s.moved [] s.draws).resume p = { s with seq := .running p } := by
    rw [resume_of_ne_nil _ _ hmore]
    simp [State.moved]
  rw [Goes, hself]
  exact RunsTo.refl _

/-- A row drive (R90). -/
theorem goes_rowDrive (s : State) (ha : s.agenda = []) (w : Word) (r : Fin 4) (rest : List Action)
    (smp : Option Level) (ans : Option Byte) :
    Goes s ⟨w, rowDrive r ++ rest, smp, ans⟩ (rowTrace r) s.draws ⟨w, rest, smp, ans⟩ :=
  goes_stretch s ha w (rowDrive r) rest smp ans (by simp [rowDrive, Action.reads]) (by simp [rowDrive]) _ rfl

/-- The row drive, where there is one, and the first read of the column (R90, R93). -/
theorem goes_scanRead (s : State) (ha : s.agenda = []) (w : Word) (r c : Fin 4) (ps : List (Fin 4 × Fin 4))
    (smp : Option Level) (ans : Option Byte) {l : Level} {ds : List Level} (hd : s.draws = l :: ds) :
    Goes s ⟨w, scanActions ((r, c) :: ps), smp, ans⟩ (driveTrace r c ++ [Event.r (.col c) l]) ds
      (Progress.afterRead (.scanRead r c) l ⟨w, scanActions ps, smp, ans⟩) := by
  rw [scanActions_cons, driveTrace]
  split
  · have hdrive := goes_rowDrive s ha w r (.scanRead r c :: scanActions ps) smp ans
    rw [hd] at hdrive
    exact hdrive.append (List.cons_ne_nil _ _)
      (goes_read (s.moved _ (l :: ds)) ha w (.scanRead r c) (scanActions ps) smp ans l ds rfl rfl)
  · exact goes_read s ha w (.scanRead r c) (scanActions ps) smp ans l ds rfl hd

/-- A column that reads 0: the debounce delay and the confirming read (R91). -/
theorem goes_confirmRead (s : State) (ha : s.agenda = []) (w : Word) (r c : Fin 4) (ps : List (Fin 4 × Fin 4))
    (smp : Option Level) (ans : Option Byte) {l : Level} {ds : List Level} (hd : s.draws = .low :: l :: ds) :
    Goes s ⟨w, scanActions ((r, c) :: ps), smp, ans⟩
      (driveTrace r c ++ [Event.r (.col c) .low, .dly .deb, .r (.col c) l]) ds
      (Progress.afterRead (.confirmRead r c) l ⟨w, scanActions ps, some .low, ans⟩) := by
  have hfirst := goes_scanRead s ha w r c ps smp ans hd
  have hdelay := hfirst.append (by simp [Progress.afterRead])
    (goes_plain (s.moved _ _) ha w [.delay .deb] (.confirmRead r c :: scanActions ps) (some .low) ans
      (by simp [Action.reads]) (by simp))
  have hconfirm := hdelay.append (by simp)
    (goes_read (s.moved _ (l :: ds)) ha w (.confirmRead r c) (scanActions ps) (some .low) ans l ds rfl rfl)
  simpa [Action.event] using hconfirm

/-- The release wait: `n` reads of 0, then the read of 1 that ends the scan with the key (R92, R93). -/
theorem goes_release (s : State) (ha : s.agenda = []) (w : Word) (r c : Fin 4) (smp : Option Level)
    (ans : Option Byte) {n : Nat} {rest : List Level} (hd : s.draws = List.replicate n .low ++ .high :: rest) :
    Goes s ⟨w, [.releaseRead r c], smp, ans⟩ (List.replicate n (Event.r (.col c) .low) ++ [Event.r (.col c) .high]) rest
      ⟨w, [], some .high, some (keymap r c)⟩ := by
  induction n generalizing s smp with
  | zero => exact goes_read s ha w (.releaseRead r c) [] smp ans .high rest rfl hd
  | succ n ih =>
    exact (goes_releaseRead_low s ha w r c smp ans hd).append (by simp) (ih (s.moved _ _) ha (some .low) rfl)

/-- A column that gives no key leads to the next one (R93). -/
theorem goes_skip (s : State) (ha : s.agenda = []) (w : Word) (r c : Fin 4) (ps : List (Fin 4 × Fin 4))
    (smp : Option Level) (ans : Option Byte) {bounce : Bool} {ds : List Level}
    (hd : s.draws = skipAnswers bounce ++ ds) :
    Goes s ⟨w, scanActions ((r, c) :: ps), smp, ans⟩ (skipTrace r c bounce) ds
      ⟨w, scanActions ps, some .high, ans⟩ := by
  cases bounce with
  | false => exact goes_scanRead s ha w r c ps smp ans hd
  | true => exact goes_confirmRead s ha w r c ps smp ans hd

/-- A column that gives a key ends the scan with its code (R93). -/
theorem goes_key (s : State) (ha : s.agenda = []) (w : Word) (r c : Fin 4) (ps : List (Fin 4 × Fin 4))
    (smp : Option Level) (ans : Option Byte) {n : Nat} {rest : List Level} (hd : s.draws = keyAnswers n ++ rest) :
    Goes s ⟨w, scanActions ((r, c) :: ps), smp, ans⟩ (keyTrace r c n) rest
      ⟨w, [], some .high, some (keymap r c)⟩ := by
  have hconfirm := goes_confirmRead s ha w r c ps smp ans (l := .low) (ds := List.replicate n .low ++ .high :: rest)
    (hd.trans (keyAnswers_append n rest))
  exact hconfirm.append (by simp [Progress.afterRead]) (goes_release (s.moved _ _) ha w r c (some .low) ans rfl)

/-- A run that stands before the columns `ps` goes on along their pass to the end of the scan. -/
theorem Goes.through_scanPass {s : State} (ha : s.agenda = []) {p : Progress} {w : Word}
    {ps : List (Fin 4 × Fin 4)} {a : List Event} {ds : List Level} {smp : Option Level} {tr : List Event} {key : Byte}
    {rest : List Level} (h : Goes s p a ds ⟨w, scanActions ps, smp, some 0x00#8⟩)
    (hpass : scanPass ps ds = some (tr, key, rest)) : ∃ smp', Goes s p (a ++ tr) rest ⟨w, [], smp', some key⟩ := by
  induction ps generalizing a ds smp tr with
  | nil =>
    cases hpass
    rw [List.append_nil]
    exact ⟨smp, h⟩
  | cons x ps ih =>
    obtain ⟨r, c⟩ := x
    have hmore : scanActions ((r, c) :: ps) ≠ [] := by simp [scanActions_cons]
    obtain ⟨bounce, ds', tr', rfl, hpass', rfl⟩ | ⟨n, rfl, rfl, rfl⟩ := scanPass_cons_cases hpass
    · rw [← List.append_assoc]
      exact ih (h.append hmore (goes_skip (s.moved a _) ha w r c ps smp _ rfl)) hpass'
    · exact ⟨_, h.append hmore (goes_key (s.moved a _) ha w r c ps smp _ rfl)⟩

/-- Settles O37: the script of SCAN_KEY is the actions of all sixteen columns, and the engine goes along their pass. -/
theorem scanKeyRunsItsPseudocode : Obligations.ScanKeyRunsItsPseudocode := by
  intro s tr key rest hs ha hpass
  have haccept := exec_of_idle .scanKey s hs
  rw [scriptOf, answerOf, scanKeyScript_eq_scanActions] at haccept
  have hstart : Goes s ⟨encode .scanKey, scanActions scanOrder, none, some 0x00#8⟩ [] s.draws
      ⟨encode .scanKey, scanActions scanOrder, none, some 0x00#8⟩ := Goes.refl (by simp [scanActions, scanOrder])
  obtain ⟨smp, hgoes⟩ := hstart.through_scanPass ha hpass
  have hend : (s.moved tr rest).resume ⟨encode .scanKey, [], smp, some key⟩ =
      { s with pins := s.pins.after tr, trace := s.trace ++ tr, draws := rest, key := key } := by
    simp [State.resume, State.moved, hs]
  rw [List.nil_append, Goes, hend] at hgoes
  exact ⟨_, haccept, hgoes⟩

/-! ### The key a scan returns and the delays it takes -/

/-- The events of columns that give no key. -/
def skipsTrace (ps : List (Fin 4 × Fin 4)) (bounces : List Bool) : List Event :=
  (ps.zip bounces).flatMap fun x => skipTrace x.1.1 x.1.2 x.2

/-- The columns that give no key stand in front of the pass of the others. -/
theorem scanPass_append_skips {ps : List (Fin 4 × Fin 4)} {bounces : List Bool} (hl : bounces.length = ps.length)
    (qs : List (Fin 4 × Fin 4)) (ds : List Level) :
    scanPass (ps ++ qs) (bounces.flatMap skipAnswers ++ ds) =
      (scanPass qs ds).map fun x => (skipsTrace ps bounces ++ x.1, x.2) := by
  induction ps generalizing bounces with
  | nil =>
    obtain rfl := List.eq_nil_of_length_eq_zero hl
    exact Option.map_id'.symm
  | cons x ps ih =>
    obtain ⟨b, bs, rfl⟩ := List.exists_cons_of_length_eq_add_one hl
    rw [List.cons_append, List.flatMap_cons, List.append_assoc, scanPass_cons_skip, ih (by simpa using hl),
      Option.map_map]
    simp [skipsTrace, Function.comp_def]

@[simp] theorem minDuration_driveTrace (r c : Fin 4) :
    minDuration (driveTrace r c) = if c = 0 then duration .row else 0 := by
  unfold driveTrace
  split <;> rfl

@[simp] theorem minDuration_skipTrace (r c : Fin 4) (bounce : Bool) :
    minDuration (skipTrace r c bounce) =
      (if c = 0 then duration .row else 0) + if bounce then duration .deb else 0 := by
  cases bounce <;> simp [skipTrace, minDuration_append, minDuration]

@[simp] theorem minDuration_keyTrace (r c : Fin 4) (n : Nat) :
    minDuration (keyTrace r c n) = (if c = 0 then duration .row else 0) + duration .deb := by
  have hrelease : minDuration (List.replicate n (Event.r (.col c) .low) ++ [Event.r (.col c) .high]) = 0 := by
    induction n with
    | zero => rfl
    | succ n ih => exact ih
  rw [keyTrace, minDuration_append, minDuration_append, minDuration_driveTrace, hrelease]
  rfl

/-- How many rows the columns `ps` begin. -/
def rowStarts (ps : List (Fin 4 × Fin 4)) : Nat := ps.countP fun x => x.2 == 0

/-- The columns without a key take a row drive per row they begin and a debounce delay per bounce (R124). -/
theorem minDuration_skipsTrace {ps : List (Fin 4 × Fin 4)} {bounces : List Bool} (hl : bounces.length = ps.length) :
    minDuration (skipsTrace ps bounces) = rowStarts ps * duration .row + bounces.count true * duration .deb := by
  induction ps generalizing bounces with
  | nil =>
    obtain rfl := List.eq_nil_of_length_eq_zero hl
    simp [skipsTrace, rowStarts, minDuration]
  | cons x ps ih =>
    obtain ⟨b, bs, rfl⟩ := List.exists_cons_of_length_eq_add_one hl
    have hcons : skipsTrace (x :: ps) (b :: bs) = skipTrace x.1 x.2 b ++ skipsTrace ps bs := rfl
    have hrows : rowStarts (x :: ps) = rowStarts ps + if x.2 = 0 then 1 else 0 := by
      simp [rowStarts, List.countP_cons]
    have hbounces : (b :: bs).count true = bs.count true + if b then 1 else 0 := by
      simp [List.count_cons]
    rw [hcons, minDuration_append, ih (by simpa using hl), minDuration_skipTrace, hrows, hbounces]
    split <;> split <;> ring

/-- The columns before (r, c) in row-major order (R94). -/
def columnsBefore (r c : Fin 4) : List (Fin 4 × Fin 4) := scanOrder.take (4 * r.val + c.val)

theorem scanOrder_eq_columnsBefore_append (r c : Fin 4) :
    scanOrder = columnsBefore r c ++ (r, c) :: scanOrder.drop (4 * r.val + c.val + 1) := by
  revert r c; decide

theorem length_columnsBefore (r c : Fin 4) : (columnsBefore r c).length = 4 * r.val + c.val := by
  revert r c; decide

/-- Up to and with (r, c), the rows 0 to r have begun. -/
theorem rowStarts_columnsBefore (r c : Fin 4) :
    rowStarts (columnsBefore r c) + (if c = 0 then 1 else 0) = r.val + 1 := by
  revert r c; decide

/-- Settles O38: the columns before (r, c) give no key and (r, c) gives its own. -/
theorem scanReturnsTheFirstConfirmedKey : Obligations.ScanReturnsTheFirstConfirmedKey := by
  intro s r c bounces n rest hs ha hl hd
  rw [← length_columnsBefore r c] at hl
  have hpass : scanPass scanOrder s.draws =
      some (skipsTrace (columnsBefore r c) bounces ++ keyTrace r c n, keymap r c, rest) := by
    change s.draws = bounces.flatMap skipAnswers ++ _ ++ _ ++ _ at hd
    have hdraws : s.draws = bounces.flatMap skipAnswers ++ (keyAnswers n ++ rest) := by
      simpa [keyAnswers] using hd
    rw [hdraws, scanOrder_eq_columnsBefore_append r c, scanPass_append_skips hl, scanPass_cons_key]
    rfl
  obtain ⟨p, hexec, hrun⟩ := scanKeyRunsItsPseudocode s _ _ _ hs ha hpass
  refine ⟨p, _, hexec, hrun, ?_⟩
  rw [minDuration_append, minDuration_skipsTrace hl, minDuration_keyTrace, ← rowStarts_columnsBefore r c]
  split <;> ring

/-- Settles O39: all sixteen columns give no key, and four of them begin a row. -/
theorem scanWithoutAKeyReturnsZero : Obligations.ScanWithoutAKeyReturnsZero := by
  intro s bounces rest hs ha hl hd
  have hpass : scanPass scanOrder s.draws = some (skipsTrace scanOrder bounces ++ [], 0x00#8, rest) := by
    rw [hd]
    exact scanPass_append_skips (ps := scanOrder) hl [] rest
  obtain ⟨p, hexec, hrun⟩ := scanKeyRunsItsPseudocode s _ _ _ hs ha hpass
  refine ⟨p, _, hexec, hrun, ?_⟩
  rw [List.append_nil]
  exact minDuration_skipsTrace hl

/-! ### The row lines -/

/-- ROWr = 0 and the other rows 1 (R90, R95). -/
def Pins.DrivesRow (p : Pins) (r : Fin 4) : Prop := ∀ q : Fin 4, p.rows[q] = if q = r then .low else .high

theorem drivesRow_after_rowTrace (p : Pins) (r : Fin 4) : (p.after (rowTrace r)).DrivesRow r := by
  intro q
  fin_cases r <;> fin_cases q <;> simp [rowTrace, Pins.setLevel]

/-- A column's trace drives its row, or finds it driven; its reads and delays change no pin. -/
theorem drivesRow_after_driveTrace {p : Pins} {r c : Fin 4} (h : c = 0 ∨ p.DrivesRow r) :
    (p.after (driveTrace r c)).DrivesRow r := by
  unfold driveTrace
  split
  · exact drivesRow_after_rowTrace p r
  · next hc => exact h.resolve_left hc

theorem after_skipTrace (p : Pins) (r c : Fin 4) (bounce : Bool) :
    p.after (skipTrace r c bounce) = p.after (driveTrace r c) := by
  cases bounce <;> simp [skipTrace, after_append]

theorem after_keyTrace (p : Pins) (r c : Fin 4) (n : Nat) :
    p.after (keyTrace r c n) = p.after (driveTrace r c) := by
  simp [keyTrace, after_append, after_replicate_r]

/-- Each of the columns begins its row or follows a column of the same row, and the last one is of row 3; `last` is the
row of the column before them, if there is one. -/
def RowsInOrder : Option (Fin 4) → List (Fin 4 × Fin 4) → Prop
  | last, [] => last = some 3
  | last, (r, c) :: ps => (c = 0 ∨ last = some r) ∧ RowsInOrder (some r) ps

theorem rowsInOrder_scanOrder : RowsInOrder none scanOrder := by simp [RowsInOrder, scanOrder]

/-- A pass that starts with the row of the column before it driven leaves the row of its key, or row 3, driven. -/
theorem drivesRow_after_scanPass {ps : List (Fin 4 × Fin 4)} {last : Option (Fin 4)} (hps : RowsInOrder last ps)
    {p : Pins} (hlast : ∀ r, last = some r → p.DrivesRow r) {ds : List Level} {tr : List Event} {key : Byte}
    {rest : List Level} (hpass : scanPass ps ds = some (tr, key, rest)) :
    (key = 0x00#8 ∧ (p.after tr).DrivesRow 3) ∨ ∃ r c, key = keymap r c ∧ (p.after tr).DrivesRow r := by
  induction ps generalizing last p ds tr with
  | nil =>
    cases hpass
    exact .inl ⟨rfl, hlast 3 hps⟩
  | cons x ps ih =>
    obtain ⟨r, c⟩ := x
    obtain ⟨hrow, hps'⟩ := hps
    have hdriven := drivesRow_after_driveTrace (hrow.imp_right (hlast r))
    obtain ⟨bounce, ds', tr', rfl, hpass', rfl⟩ | ⟨n, rfl, rfl, rfl⟩ := scanPass_cons_cases hpass
    · rw [after_append, after_skipTrace]
      exact ih hps' (fun _ hr => Option.some.inj hr ▸ hdriven) hpass'
    · rw [after_keyTrace]
      exact .inr ⟨r, c, rfl, hdriven⟩

/-- Settles O40: the scan's run ends with the pins its pass leaves. -/
theorem rowLinesAfterAScan : Obligations.RowLinesAfterAScan := by
  intro s tr key rest hs ha hpass
  obtain ⟨p, hexec, -, hend⟩ := scanKeyRunsItsPseudocode s tr key rest hs ha hpass
  exact ⟨_, _, hexec, hend, hs, drivesRow_after_scanPass rowsInOrder_scanOrder (by simp) hpass⟩

end Sys2Proof.Machine
end

section
/-! The statements of 60_exceptions.md: a recorded fault is a bit of STATUS, and neither the engine's turns nor what it accepts
next depend on it. -/

namespace Sys2Proof.Machine

/-- The host's write to CMD hands its word over and comes off the agenda (R66). -/
theorem step_of_command {s : State} {w : Word} {rest : List Turn} (ha : s.agenda = .host (.write 0x00 4 w) :: rest) :
    step s = handCommand exec w { s with agenda := rest } := by
  rw [step_of_host ha, hostAccess, if_pos ⟨rfl, rfl⟩]

/-- A busy engine does not look at the word (R98, R103). -/
theorem handCommand_of_busy {s : State} (w : Word) (hb : s.busy = true) :
    handCommand exec w s = .next (s.raiseFault .overrun) := by
  rw [handCommand, if_pos hb]

theorem handCommand_of_illegal {s : State} {w : Word} (hs : s.seq = .idle) (hw : legal w = false) :
    handCommand exec w s = .next (s.raiseFault .illegal) := by
  rw [handCommand, busy_of_idle hs, (legal_eq_false_iff w).mp hw]
  rfl

/-! ### The engine does not see the fault bits -/

theorem dropDraw_raiseFault (s : State) (kind : FaultKind) : (s.raiseFault kind).dropDraw = s.dropDraw.raiseFault kind := by
  cases kind <;> cases hd : s.draws <;> simp [State.dropDraw, State.raiseFault, hd]

theorem nextDraw_raiseFault (s : State) (kind : FaultKind) : (s.raiseFault kind).nextDraw = s.nextDraw := by
  cases kind <;> rfl

theorem resume_raiseFault (s : State) (p : Progress) (kind : FaultKind) :
    (s.raiseFault kind).resume p = (s.resume p).raiseFault kind := by
  by_cases h : p.todo = []
  · cases kind <;> simp [resume_of_nil _ p h, State.raiseFault]
  · cases kind <;> simp [resume_of_ne_nil _ p h, State.raiseFault]

theorem emit_raiseFault (s : State) (e : Event) (kind : FaultKind) :
    (s.raiseFault kind).emit e = (s.emit e).raiseFault kind := by
  cases kind <;> rfl

theorem perform_raiseFault (a : Action) (p : Progress) (s : State) (kind : FaultKind) :
    (s.raiseFault kind).perform a p = (s.perform a p).raiseFault kind := by
  cases h : a.reads
  · rw [perform_of_not_reads a p _ .low h, perform_of_not_reads a p s .low h, ← resume_raiseFault]
    cases kind <;> rfl
  · rw [perform_of_reads a p _ h, perform_of_reads a p s h, ← resume_raiseFault, dropDraw_raiseFault, nextDraw_raiseFault,
      emit_raiseFault]

/-- A fault recorded before an engine turn is a fault recorded after it: the turn performs the same event (R96, R98). -/
theorem engineTurn_raiseFault (s : State) (kind : FaultKind) :
    (s.raiseFault kind).engineTurn = s.engineTurn.raiseFault kind := by
  obtain ⟨hs, h⟩ | ⟨p, hs, ht, h⟩ | ⟨p, a, rest, hs, ht, h⟩ := engineTurn_cases s <;> rw [h]
  · exact engineTurn_of_idle ((raiseFault_seq s kind).trans hs)
  · rw [← resume_raiseFault]
    simp [State.engineTurn, hs, ht]
  · rw [engineTurn_of_running ((raiseFault_seq s kind).trans hs) ht, perform_raiseFault]

/-! ### The two faults -/

/-- Settles O8: the write is `raiseFault .illegal`, after which the engine is as idle as before, and only a word that does
not decode is a reason to raise it. -/
theorem illegalWordSetsOnlyFaultIllegal : Obligations.IllegalWordSetsOnlyFaultIllegal := by
  refine ⟨fun s w rest ha hs hw => ⟨?_, fun i => ⟨_, exec_of_idle i _ hs⟩⟩, fun i s t h => ?_, fun s => ?_, fun w hw => ?_⟩
  · exact (step_of_command ha).trans (handCommand_of_illegal (s := { s with agenda := rest }) hs hw)
  · obtain ⟨_, rfl⟩ | ⟨_, rfl⟩ := exec_cases h <;> rfl
  · obtain ⟨hill, -⟩ := engineTurn_frame s
    exact hill
  · exact Option.isSome_iff_exists.mp ((legal_eq_isSome_decode w).symm.trans hw)

/-- Settles O9: the write is `raiseFault .overrun`, and an engine turn commutes with it and with the agenda's change. -/
theorem overrunSetsOnlyItsBitAndDisturbsNothing : Obligations.OverrunSetsOnlyItsBitAndDisturbsNothing := by
  refine fun s w rest ha hs => ⟨?_, ?_⟩
  · exact (step_of_command ha).trans
      (handCommand_of_busy (s := { s with agenda := rest }) w ((busy_iff_ne_idle s).mpr hs))
  · obtain ⟨-, -, -, -, hrep⟩ := engineTurn_frame s
    calc ((s.withHost rest s.replies).raiseFault .overrun).engineTurn
      _ = (s.engineTurn.withHost rest s.replies).raiseFault .overrun := by
        rw [engineTurn_raiseFault, engineTurn_withHost]
      _ = { s.engineTurn with agenda := rest, faultOverrun := true } := by
        rw [← hrep]
        rfl

end Sys2Proof.Machine
end
